-- ==== Sys2Proof/Config.lean ====
section
/-!
DEFINITION. The named parameters of the spec with the values this hardware takes (spec/00_scope.md R5, R6;
spec/92_eei_decisions.md, "Open parameters"). The literals are unaudited against the repository (N23, log 20).
The spec leaves no value open to the implementation (spec/93_implementation_defined.md), so there is no free value here.
`FAM9_LAYOUT` is given by the definitions of Sys2Proof/Decode.lean (log 7).
-/

namespace Sys2Proof.Config

/-- `RADIX`: the digits are decimal (R5). Reducible, because `Digit` is `Fin radix`. -/
abbrev radix : Nat := 10

/-- `WORD_DIGITS`: one sign digit and four magnitude digits (R5); the structure `CellValue` has as many. -/
def wordDigits : Nat := 5

/-- The width of the address field of the formats led by digits 1 to 8 (R5). -/
def a4Digits : Nat := 4

/-- The width of the address field of `01aaa` and `02aaa` (R5). -/
def a3Digits : Nat := 3

/-- The width of the field of `907aa`, `908aa` and the one-word family-9 forms (R5). -/
def a2Digits : Nat := 2

/-- `MEM_SIZE`: the number of cells; addresses are 0 to `memSize - 1` (R5, R35). -/
def memSize : Nat := 10000

/-- `MAG_MAX`: the largest magnitude of a numeric word (R5). -/
def magMax : Int := 9999

/-- `SP_INIT`: the stack pointer at machine creation (R5, R30). -/
def spInit : Nat := 9999

/-- `BP_INIT`: the base pointer at machine creation (R5, R31). -/
def bpInit : Nat := 9999

/-- `FLAGS_RESET`, the flag `zero` at machine creation (R27, decision D14; log 6). -/
def zeroReset : Bool := false

/-- `FLAGS_RESET`, the flag `negative` at machine creation (R27, decision D14; log 6). -/
def negativeReset : Bool := false

/-- `RUN_STEP_BOUND`: the steps of one `run()` call (R5, R108). -/
def runStepBound : Nat := 100

end Sys2Proof.Config
end

