-- ==== Sys2Proof/Word.lean ====
section
/-!
DEFINITION. The datum of the machine: a cell value of five decimal digits (spec/00_scope.md R7, R8).
The machine has no bits and no bytes (R51), so nothing here is a bit vector.
-/

namespace Sys2Proof

/-- A decimal digit, 0 to 9 (R5, R7). -/
abbrev Digit := Fin Config.radix

/-- A cell value (R7): exactly five digits, `d0` leading. There are 100000 of them. -/
structure CellValue where
  d0 : Digit
  d1 : Digit
  d2 : Digit
  d3 : Digit
  d4 : Digit
deriving DecidableEq, Repr

/-- The five digits, leading digit first. -/
def CellValue.digits (c : CellValue) : List Digit := [c.d0, c.d1, c.d2, c.d3, c.d4]

/-- The non-negative integer whose decimal digits are the list's, most significant first. -/
def digitsValue : List Digit → Nat :=
  List.foldl (fun n d => Config.radix * n + d.val) 0

/-- `c[i:j]` of R7: the integer whose decimal digits are `c[i]` to `c[j]`, `c[i]` most significant. -/
def CellValue.slice (c : CellValue) (i j : Nat) : Nat :=
  digitsValue ((c.digits.take (j + 1)).drop i)

/-- The digit of `n` at the place worth `radix ^ k`. -/
def digitAt (n k : Nat) : Digit := Fin.ofNat Config.radix (n / Config.radix ^ k)

/-- The cell value with all five digits 0, positive zero (R8). -/
def CellValue.zero : CellValue := ⟨0, 0, 0, 0, 0⟩

/-- A numeric word (R8): a cell value led by 0 or 1. -/
abbrev CellValue.isNumeric (c : CellValue) : Prop := c.d0.val ≤ 1

end Sys2Proof
end

