-- ==== Sys2Proof/Syntax.lean ====
section
/-!
DEFINITION. The instructions: one constructor per row of spec/opcode_table.json, in the table's order (spec/30_encoding.md R76, R79).
Address and literal fields are unsigned decimal numbers taken as they stand (R72); the operand word of a two-word form is a cell value
taken whole (R82). Sys2Proof/WellFormed.lean bounds the fields.
-/

namespace Sys2Proof

/-- The 35 instructions. -/
inductive Instr where
  /-- `00000`, R110. -/
  | halt
  /-- `01aaa`, R121: increment `M[a]`. -/
  | inc (a : Nat)
  /-- `02aaa`, R122: decrement `M[a]`. -/
  | dec (a : Nat)
  /-- `03000`, R134: push `acc`. -/
  | push
  /-- `04000`, R135: pop into `acc`. -/
  | pop
  /-- `1aaaa`, R141: `acc := M[a]`. -/
  | load (a : Nat)
  /-- `2aaaa`, R142: `M[a] := acc`. -/
  | store (a : Nat)
  /-- `3aaaa`, R153: `acc := acc + M[a]`. -/
  | add (a : Nat)
  /-- `4aaaa`, R154: `acc := acc - M[a]`. -/
  | sub (a : Nat)
  /-- `5aaaa`, R155: `acc := acc × M[a]`. -/
  | mul (a : Nat)
  /-- `6aaaa`, R171: branch. -/
  | br (a : Nat)
  /-- `7aaaa`, R172: branch if the sign digit of `acc` is 1. -/
  | brn (a : Nat)
  /-- `8aaaa`, R173: branch if the magnitude digits of `acc` are 0000. -/
  | brz (a : Nat)
  /-- `907aa`, R174: branch if the flag `negative` is set. -/
  | brnf (a : Nat)
  /-- `908aa`, R175: branch if the flag `zero` is set. -/
  | brzf (a : Nat)
  /-- `910xx`, R186: push a short immediate. -/
  | pushi (xx : Nat)
  /-- `91100` w, R187: push a word immediate. -/
  | pushiw (w : CellValue)
  /-- `912xx`, R188: push through a short indirect operand. -/
  | pushn (xx : Nat)
  /-- `91300` w, R189: push through a word indirect operand. -/
  | pushnw (w : CellValue)
  /-- `920xx`, R190: load a short immediate. -/
  | ldi (xx : Nat)
  /-- `92100` w, R191: load a word immediate. -/
  | ldiw (w : CellValue)
  /-- `922xx`, R192: load through a short indirect operand. -/
  | ldn (xx : Nat)
  /-- `92300` w, R193: load through a word indirect operand. -/
  | ldnw (w : CellValue)
  /-- `930xx`, R194: add a short immediate. -/
  | addi (xx : Nat)
  /-- `93100` w, R195: add a word immediate. -/
  | addiw (w : CellValue)
  /-- `932xx`, R196: add through a short indirect operand. -/
  | addn (xx : Nat)
  /-- `93300` w, R197: add through a word indirect operand. -/
  | addnw (w : CellValue)
  /-- `940xx`, R198: subtract a short immediate. -/
  | subi (xx : Nat)
  /-- `94100` w, R199: subtract a word immediate. -/
  | subiw (w : CellValue)
  /-- `942xx`, R200: subtract through a short indirect operand. -/
  | subn (xx : Nat)
  /-- `94300` w, R201: subtract through a word indirect operand. -/
  | subnw (w : CellValue)
  /-- `950xx`, R202: multiply by a short immediate. -/
  | muli (xx : Nat)
  /-- `95100` w, R203: multiply by a word immediate. -/
  | muliw (w : CellValue)
  /-- `952xx`, R204: multiply through a short indirect operand. -/
  | muln (xx : Nat)
  /-- `95300` w, R205: multiply through a word indirect operand. -/
  | mulnw (w : CellValue)
deriving DecidableEq, Repr

end Sys2Proof
end

