-- ==== Sys2Proof/WellFormed.lean ====
section
/-!
DEFINITION. Which terms of `Instr` are instructions of the machine: every field within the digits its format gives it
(spec/30_encoding.md R71, R72). An operand word may be any cell value (R70).
-/

namespace Sys2Proof

/-- A field of `n` digits holds `a` (R5, R72). -/
def fits (n a : Nat) : Bool := decide (a < Config.radix ^ n)

/-- The field bounds: 0 to 999 for `aaa`, 0 to 9999 for `aaaa`, 0 to 99 for `aa` and `xx` (R72). -/
def Instr.wellFormed : Instr → Bool
  | .halt => true
  | .inc a => fits Config.a3Digits a
  | .dec a => fits Config.a3Digits a
  | .push => true
  | .pop => true
  | .load a => fits Config.a4Digits a
  | .store a => fits Config.a4Digits a
  | .add a => fits Config.a4Digits a
  | .sub a => fits Config.a4Digits a
  | .mul a => fits Config.a4Digits a
  | .br a => fits Config.a4Digits a
  | .brn a => fits Config.a4Digits a
  | .brz a => fits Config.a4Digits a
  | .brnf a => fits Config.a2Digits a
  | .brzf a => fits Config.a2Digits a
  | .pushi xx => fits Config.a2Digits xx
  | .pushiw _ => true
  | .pushn xx => fits Config.a2Digits xx
  | .pushnw _ => true
  | .ldi xx => fits Config.a2Digits xx
  | .ldiw _ => true
  | .ldn xx => fits Config.a2Digits xx
  | .ldnw _ => true
  | .addi xx => fits Config.a2Digits xx
  | .addiw _ => true
  | .addn xx => fits Config.a2Digits xx
  | .addnw _ => true
  | .subi xx => fits Config.a2Digits xx
  | .subiw _ => true
  | .subn xx => fits Config.a2Digits xx
  | .subnw _ => true
  | .muli xx => fits Config.a2Digits xx
  | .muliw _ => true
  | .muln xx => fits Config.a2Digits xx
  | .mulnw _ => true

end Sys2Proof
end

