-- ==== Sys2Proof/Decode.lean ====
section
/-!
DEFINITION. Instruction words (spec/30_encoding.md): the fields, the family-9 layout, `Decode` (R74), reading an instruction from a list
of cells, the encoder written from the same tables, and the form in which the host numbers an instruction's bits.
-/

namespace Sys2Proof

/-! ## Fields (R72) -/

/-- The field of the last `n` digits of a cell value (R72). -/
def lowField (n : Nat) (c : CellValue) : Nat := c.slice (Config.wordDigits - n) (Config.wordDigits - 1)

/-- The 4-digit field `c[1:4]`, 0 to 9999 (R5, R72). -/
def fieldA4 (c : CellValue) : Nat := lowField Config.a4Digits c

/-- The 3-digit field `c[2:4]`, 0 to 999 (R5, R72). -/
def fieldA3 (c : CellValue) : Nat := lowField Config.a3Digits c

/-- The 2-digit field `c[3:4]`, 0 to 99 (R5, R72). -/
def fieldA2 (c : CellValue) : Nat := lowField Config.a2Digits c

/-! ## The family-9 layout, the spec's parameter `FAM9_LAYOUT` at its default `9 o m x x` (R77 to R79, decision D1; UNVERIFIED,
unsafe, log 7): which digit is the operation, which the mode, which digits the field, and which digit value selects what. -/

/-- The five operations of family 9 (R78). -/
inductive Fam9Op where
  | push | ld | add | sub | mul
deriving DecidableEq, Repr

/-- The four addressing modes of family 9 (R79). -/
inductive Fam9Mode where
  | shortImmediate | wordImmediate | shortIndirect | wordIndirect
deriving DecidableEq, Repr

/-- The operation digit `o = c[1:1]` (R72, R77). -/
def fam9OpDigit (c : CellValue) : Nat := c.slice 1 1

/-- The mode digit `m = c[2:2]` (R72, R77). -/
def fam9ModeDigit (c : CellValue) : Nat := c.slice 2 2

/-- The operation a digit selects, 1 to 5 (R78). -/
def fam9OpOf (o : Nat) : Option Fam9Op :=
  match o with
  | 1 => some .push
  | 2 => some .ld
  | 3 => some .add
  | 4 => some .sub
  | 5 => some .mul
  | _ => none

/-- The mode a digit selects, 0 to 3; 4 to 9 select none (R79, D1). -/
def fam9ModeOf (m : Nat) : Option Fam9Mode :=
  match m with
  | 0 => some .shortImmediate
  | 1 => some .wordImmediate
  | 2 => some .shortIndirect
  | 3 => some .wordIndirect
  | _ => none

/-- The digit that selects an operation (R78). -/
def fam9OpCode (op : Fam9Op) : Digit :=
  match op with
  | .push => 1
  | .ld => 2
  | .add => 3
  | .sub => 4
  | .mul => 5

/-- The digit that selects a mode (R79). -/
def fam9ModeCode (m : Fam9Mode) : Digit :=
  match m with
  | .shortImmediate => 0
  | .wordImmediate => 1
  | .shortIndirect => 2
  | .wordIndirect => 3

/-- A one-word family-9 instruction with its two-digit field; `indirect` tells mode 2 from mode 0 (R79). -/
def fam9Short (op : Fam9Op) (indirect : Bool) (xx : Nat) : Instr :=
  match op, indirect with
  | .push, false => .pushi xx
  | .push, true => .pushn xx
  | .ld, false => .ldi xx
  | .ld, true => .ldn xx
  | .add, false => .addi xx
  | .add, true => .addn xx
  | .sub, false => .subi xx
  | .sub, true => .subn xx
  | .mul, false => .muli xx
  | .mul, true => .muln xx

/-- A two-word family-9 instruction with its operand word; `indirect` tells mode 3 from mode 1 (R79). -/
def fam9Word (op : Fam9Op) (indirect : Bool) (w : CellValue) : Instr :=
  match op, indirect with
  | .push, false => .pushiw w
  | .push, true => .pushnw w
  | .ld, false => .ldiw w
  | .ld, true => .ldnw w
  | .add, false => .addiw w
  | .add, true => .addnw w
  | .sub, false => .subiw w
  | .sub, true => .subnw w
  | .mul, false => .muliw w
  | .mul, true => .mulnw w

/-! ## Decode (R74) -/

/-- What `Decode` gives for an instruction word (R74): `Unknown`, a whole one-word instruction, or a two-word instruction that still
lacks its operand word. -/
inductive Decoded where
  | unknown
  | oneWord (i : Instr)
  | twoWord (op : Fam9Op) (indirect : Bool)
deriving DecidableEq, Repr

/-- The words led by 0 (R74): only `00000`, `03000` and `04000` match the formats without a field (D3, log 8). -/
def decodeLed0 (c : CellValue) : Decoded :=
  match c.d1.val with
  | 0 => if fieldA3 c = 0 then .oneWord .halt else .unknown
  | 1 => .oneWord (.inc (fieldA3 c))
  | 2 => .oneWord (.dec (fieldA3 c))
  | 3 => if fieldA3 c = 0 then .oneWord .push else .unknown
  | 4 => if fieldA3 c = 0 then .oneWord .pop else .unknown
  | _ => .unknown

/-- The flag branches `907aa` and `908aa` (R74, R76). -/
def decodeFlagBranch (c : CellValue) : Decoded :=
  match c.d2.val with
  | 7 => .oneWord (.brnf (fieldA2 c))
  | 8 => .oneWord (.brzf (fieldA2 c))
  | _ => .unknown

/-- Family 9 proper (R74, R77 to R81): a word form needs `00` in its two low digits (D2, log 8). -/
def decodeFam9 (c : CellValue) : Decoded :=
  match fam9OpOf (fam9OpDigit c), fam9ModeOf (fam9ModeDigit c) with
  | some op, some .shortImmediate => .oneWord (fam9Short op false (fieldA2 c))
  | some op, some .wordImmediate => if fieldA2 c = 0 then .twoWord op false else .unknown
  | some op, some .shortIndirect => .oneWord (fam9Short op true (fieldA2 c))
  | some op, some .wordIndirect => if fieldA2 c = 0 then .twoWord op true else .unknown
  | _, _ => .unknown

/-- `Decode(c)` (R74), total on cell values; it needs no state (R73). -/
def decodeHead (c : CellValue) : Decoded :=
  match c.d0.val with
  | 0 => decodeLed0 c
  | 1 => .oneWord (.load (fieldA4 c))
  | 2 => .oneWord (.store (fieldA4 c))
  | 3 => .oneWord (.add (fieldA4 c))
  | 4 => .oneWord (.sub (fieldA4 c))
  | 5 => .oneWord (.mul (fieldA4 c))
  | 6 => .oneWord (.br (fieldA4 c))
  | 7 => .oneWord (.brn (fieldA4 c))
  | 8 => .oneWord (.brz (fieldA4 c))
  | _ => if c.d1.val = 0 then decodeFlagBranch c else decodeFam9 c

/-- The word count `Decode` reports: 1 or 2, none for `Unknown` (R70, R73). -/
def decodedWords (d : Decoded) : Option Nat :=
  match d with
  | .unknown => none
  | .oneWord _ => some 1
  | .twoWord _ _ => some 2

/-- Why a list of cells is not read as an instruction. -/
inductive DecodeError where
  /-- There is no instruction word. -/
  | noWord
  /-- The instruction word matches no row of the opcode table: `UnknownInstruction` (R83). -/
  | unknownInstruction (c : CellValue)
  /-- A two-word instruction whose operand word is absent. -/
  | noOperandWord (c : CellValue)
deriving DecidableEq, Repr

/-- Reads one instruction from the front of a list of cells and gives the cells after it: the instruction word at the lower address,
the operand word next (R51, R70). -/
def decodeWords (ws : List CellValue) : Except DecodeError (Instr × List CellValue) :=
  match ws with
  | [] => .error .noWord
  | c :: rest =>
    match decodeHead c with
    | .unknown => .error (.unknownInstruction c)
    | .oneWord i => .ok (i, rest)
    | .twoWord op indirect =>
      match rest with
      | [] => .error (.noOperandWord c)
      | w :: rest' => .ok (fam9Word op indirect w, rest')

/-! ## The encoder, written from R71, R76 and R79 -/

/-- Format A4: `kaaaa` (R71). -/
def wordA4 (k : Digit) (a : Nat) : CellValue := ⟨k, digitAt a 3, digitAt a 2, digitAt a 1, digitAt a 0⟩

/-- Format A3: `0kaaa` (R71). -/
def wordA3 (k : Digit) (a : Nat) : CellValue := ⟨0, k, digitAt a 2, digitAt a 1, digitAt a 0⟩

/-- Format A2: `90kaa` (R71). -/
def wordA2 (k : Digit) (a : Nat) : CellValue := ⟨9, 0, k, digitAt a 1, digitAt a 0⟩

/-- Formats F9S and F9W: `9omxx` (R71, R77); a word form has `xx` = 00 (R81). -/
def fam9Instr (op : Fam9Op) (m : Fam9Mode) (xx : Nat) : CellValue :=
  ⟨9, fam9OpCode op, fam9ModeCode m, digitAt xx 1, digitAt xx 0⟩

/-- The words of an instruction, instruction word first (R70, R71, R76, R79). -/
def encode (i : Instr) : List CellValue :=
  match i with
  | .halt => [⟨0, 0, 0, 0, 0⟩]
  | .inc a => [wordA3 1 a]
  | .dec a => [wordA3 2 a]
  | .push => [⟨0, 3, 0, 0, 0⟩]
  | .pop => [⟨0, 4, 0, 0, 0⟩]
  | .load a => [wordA4 1 a]
  | .store a => [wordA4 2 a]
  | .add a => [wordA4 3 a]
  | .sub a => [wordA4 4 a]
  | .mul a => [wordA4 5 a]
  | .br a => [wordA4 6 a]
  | .brn a => [wordA4 7 a]
  | .brz a => [wordA4 8 a]
  | .brnf a => [wordA2 7 a]
  | .brzf a => [wordA2 8 a]
  | .pushi xx => [fam9Instr .push .shortImmediate xx]
  | .pushiw w => [fam9Instr .push .wordImmediate 0, w]
  | .pushn xx => [fam9Instr .push .shortIndirect xx]
  | .pushnw w => [fam9Instr .push .wordIndirect 0, w]
  | .ldi xx => [fam9Instr .ld .shortImmediate xx]
  | .ldiw w => [fam9Instr .ld .wordImmediate 0, w]
  | .ldn xx => [fam9Instr .ld .shortIndirect xx]
  | .ldnw w => [fam9Instr .ld .wordIndirect 0, w]
  | .addi xx => [fam9Instr .add .shortImmediate xx]
  | .addiw w => [fam9Instr .add .wordImmediate 0, w]
  | .addn xx => [fam9Instr .add .shortIndirect xx]
  | .addnw w => [fam9Instr .add .wordIndirect 0, w]
  | .subi xx => [fam9Instr .sub .shortImmediate xx]
  | .subiw w => [fam9Instr .sub .wordImmediate 0, w]
  | .subn xx => [fam9Instr .sub .shortIndirect xx]
  | .subnw w => [fam9Instr .sub .wordIndirect 0, w]
  | .muli xx => [fam9Instr .mul .shortImmediate xx]
  | .muliw w => [fam9Instr .mul .wordImmediate 0, w]
  | .muln xx => [fam9Instr .mul .shortIndirect xx]
  | .mulnw w => [fam9Instr .mul .wordIndirect 0, w]

/-- The words an instruction occupies (R70): two for the ten word forms of family 9, one for every other. -/
def Instr.wordCount (i : Instr) : Nat :=
  match i with
  | .halt => 1
  | .inc _ => 1
  | .dec _ => 1
  | .push => 1
  | .pop => 1
  | .load _ => 1
  | .store _ => 1
  | .add _ => 1
  | .sub _ => 1
  | .mul _ => 1
  | .br _ => 1
  | .brn _ => 1
  | .brz _ => 1
  | .brnf _ => 1
  | .brzf _ => 1
  | .pushi _ => 1
  | .pushiw _ => 2
  | .pushn _ => 1
  | .pushnw _ => 2
  | .ldi _ => 1
  | .ldiw _ => 2
  | .ldn _ => 1
  | .ldnw _ => 2
  | .addi _ => 1
  | .addiw _ => 2
  | .addn _ => 1
  | .addnw _ => 2
  | .subi _ => 1
  | .subiw _ => 2
  | .subn _ => 1
  | .subnw _ => 2
  | .muli _ => 1
  | .muliw _ => 2
  | .muln _ => 1
  | .mulnw _ => 2


/-! ## The host's numbering of an instruction's bits

The opcode table is decimal (`"radix": 10`) and the machine has no bits (R51), so the table gives no bit any place. DESIGN CHOICE, log 25:
a cell value is numbered as the integer its five decimal digits write, in a slot of 24 bits (three whole bytes), the instruction word in
bits 23..0 and the operand word in bits 47..24. -/

/-- The cell value whose five digits write `n`; none when `n` has more than five digits (R5). -/
def cellOfNat (n : Nat) : Option CellValue :=
  if n < Config.radix ^ Config.wordDigits then some ⟨digitAt n 4, digitAt n 3, digitAt n 2, digitAt n 1, digitAt n 0⟩ else none

/-- The two cells that `w` numbers: the low 24 bits and the next 24 (log 25). -/
def cellsOfTableWord (nbits w : Nat) : Option (CellValue × CellValue) :=
  match cellOfNat (w % 2 ^ nbits % 2 ^ 24), cellOfNat (w % 2 ^ nbits / 2 ^ 24) with
  | some c, some v => some (c, v)
  | _, _ => none

/-- The instruction this decoder reads from the cells `w` numbers, `nbits` of them given and the rest 0. -/
def decodeTableWord (nbits w : Nat) : Option Instr :=
  match cellsOfTableWord nbits w with
  | none => none
  | some (c, v) =>
    match decodeWords [c, v] with
    | .ok (i, _) => some i
    | .error _ => none

end Sys2Proof
end

