-- ==== Sys2Proof/Machine/Codec.lean ====
section
/-!
DEFINITION. The WordCodec (spec/00_scope.md R2, R8 to R11): numeric words and the integers they stand for.
-/

namespace Sys2Proof.Machine

/-- The four magnitude digits `c[1:4]` of a cell value (R7). -/
def magnitude (c : CellValue) : Nat := c.slice 1 4

/-- `decode(w)` of R9: minus the magnitude when the sign digit is 1, the magnitude otherwise. The rules apply it to numeric words only
(R58 faults first on any other cell value). -/
def decodeNum (w : CellValue) : Int :=
  if w.d0.val = 1 then -(magnitude w : Int) else (magnitude w : Int)

/-- `encode(v)` of R10: the sign digit and four magnitude digits. The rules apply it within -9999 to 9999 only (R151 faults first). -/
def encodeNum (v : Int) : CellValue :=
  ⟨if v < 0 then 1 else 0, digitAt v.natAbs 3, digitAt v.natAbs 2, digitAt v.natAbs 1, digitAt v.natAbs 0⟩

/-- `zext5(n)` of R11: `"000"` and the two digits of `n` (D4, log 9). -/
def zext5 (n : Nat) : CellValue := ⟨0, 0, 0, digitAt n 1, digitAt n 0⟩

end Sys2Proof.Machine
end

