-- ==== Sys2Proof/Machine/State.lean ====
section
/-!
DEFINITION. The state of the machine (spec/10_state.md R20 to R38) as plain data, the eight faults, the refusal, what a host operation
returns, and the state at machine creation (R260).
-/

namespace Sys2Proof.Machine

/-- The status bit `halted` (R33): three values, `unset` until the first execution attempt. -/
inductive Halted where
  /-- No execution has been attempted; execution is permitted (R33, S4). -/
  | unset
  /-- `false`. -/
  | no
  /-- `true`: no step is executed until `reset()` or a successful `load` (R34). -/
  | yes
deriving DecidableEq, Repr

/-- Where a value that has no usable meaning came from (R58, R152, R228). -/
inductive Src where
  /-- The cell at this address. -/
  | mem (a : Nat)
  /-- The accumulator. -/
  | acc
  /-- The short immediate of the instruction word. -/
  | imm
deriving DecidableEq, Repr

/-- The eight faults of spec/60_exceptions.md, each with the information its rule records (R223, R224 to R231). The spec describes what a
fault does (R221: nothing of the instruction is written, `halted <- true`), so every fault is TAKEN, in a next state, by
`State.takeFault` of Sys2Proof/Machine/Ops.lean; no step of this model ends in `Host.Outcome.fault` (log 1). -/
inductive Fault where
  /-- Raised by fetch and decode: the cell at `ip` is FILLER or an illegal cell value (R224). Safe: the machine halts as the spec says. -/
  | unknownInstruction (ip : Nat)
  /-- Raised by `push` with `sp` = 0 (R225). Safe: the machine halts as the spec says. -/
  | stackOverflow (sp : Nat)
  /-- Raised by `pop` with `sp` ≥ `bp` (R226). Safe: the machine halts as the spec says. -/
  | stackUnderflow (sp : Nat)
  /-- Raised by every access outside 0 to 9999 and by a negative pointer (R227, D11, D12). Safe: the machine halts as the spec says. -/
  | addressOutOfRange (a : Int)
  /-- Raised by a data read of FILLER and by the numeric use of a cell value led by 2 to 9 (R228, D9, D10). Safe: it errs toward
  unprovable, as the spec says of D9 and D10. -/
  | invalidWord (src : Src)
  /-- Raised by an instruction that reads `acc` while it is `unset` (R229, D7). Safe: it errs toward unprovable. -/
  | accUnset
  /-- Raised by a step that passed both guards while `ip` is `unset` (R230, D8). Safe: it errs toward unprovable. -/
  | ipUnset
  /-- Raised by an arithmetic result outside -9999 to 9999 (R231, D5). Safe: it errs toward unprovable. -/
  | arithmeticOverflow (r : Int)
deriving DecidableEq, Repr

/-- Why a step has no meaning. -/
inductive Refusal where
  /-- Would be raised by an arm of `exec` for an instruction without a meaning; no arm does. Safe: nothing can be proved of it. -/
  | notModelled (mnemonic : String)
deriving DecidableEq, Repr

/-- The reports that change no state of the machine: the two guards of `step()` (R100, R232, R233) and a refused start address (R268). -/
inductive Guard where
  | notLoaded
  | alreadyHalted
  | badStartAddress
deriving DecidableEq, Repr

/-- What the last host operation returned (R106, R108, R266, R268); the names are free (D23, log 2). -/
inductive Status where
  /-- No host operation has returned yet. -/
  | idle
  /-- `Ok`: an instruction other than HALT completed (R106). -/
  | ok
  /-- `HaltExecuted` (R106). -/
  | haltExecuted
  /-- `Fault(F, info)` (R106). -/
  | fault (f : Fault)
  /-- `Refused(...)` (R106, R268). -/
  | refused (g : Guard)
  /-- `BoundExhausted`, of `run()` only (R108, R235). -/
  | boundExhausted
  /-- `LoadOk` (R266). -/
  | loadOk
  /-- `LoadError` (R234, R266). -/
  | loadError
  /-- `reset()` or an accepted `setStartAddress` was carried out; the spec gives these no result (R265, R268; log 2). -/
  | done
deriving DecidableEq, Repr

/-- The memory (R35, R50): address and cell value pairs, addresses strictly rising. An address that is not listed reads as FILLER (R36).
A cell holds five decimal digits, so the pairs are not `Host.Cell` (log 4). -/
abbrev Memory := List (Nat × CellValue)

/-- The machine (R20): the nine pieces of state the spec gives it, and `status`, the model's own (log 2). -/
structure State where
  /-- The accumulator; `none` is `unset` (R21, log 5). -/
  acc : Option CellValue
  /-- The instruction pointer, 0 to 10000; `none` is `unset` (R24, R26, log 5). -/
  ip : Option Nat
  /-- The stack pointer, 0 to 9999 (R30). -/
  sp : Nat
  /-- The base pointer, 9999 (R31). -/
  bp : Nat
  /-- The flag `zero` (R27). -/
  zero : Bool
  /-- The flag `negative` (R27). -/
  negative : Bool
  /-- A program has been loaded (R32). -/
  loaded : Bool
  /-- The status bit `halted` (R33). -/
  halted : Halted
  /-- The 10000 cells (R35). -/
  mem : Memory
  /-- The model's own field: what the last host operation returned (D23, log 2). No instruction and no rule reads it. -/
  status : Status
deriving DecidableEq, Repr

/-- Machine creation, the power-on reset (R38, R260). It is not the host operation `reset()` (R265), which is `State.hostReset` of
Sys2Proof/Machine/Driver.lean. -/
def State.reset : State where
  acc := none
  ip := none
  sp := Config.spInit
  bp := Config.bpInit
  zero := Config.zeroReset
  negative := Config.negativeReset
  loaded := false
  halted := .unset
  mem := []
  status := .idle

end Sys2Proof.Machine
end

