-- ==== Sys2Proof/Machine/Ops.lean ====
section
/-!
DEFINITION. The named operations over memory and registers: the checked primitives (spec/20_memory.md R54 to R59), the accumulator
(R22), the StackManager (spec/42_stack.md R131, R132), taking a fault (spec/60_exceptions.md R221) and what clears it, completing an
instruction (spec/40_engine.md R104 to R106), and the state machines that are functions of the state (R34, R133).

A rule's pseudocode is a computation in `Except Fault`: a `raise` is an error, and writes are held in the state it returns, so none of
them is visible when a later check raises (R104).
-/

namespace Sys2Proof.Machine

/-! ## Memory cells -/

/-- `M[a]`: the content of a cell; `none` is FILLER, what an unlisted address reads as (R36). -/
def Memory.read (m : Memory) (a : Nat) : Option CellValue :=
  match m with
  | [] => none
  | (b, c) :: rest => if b = a then some c else Memory.read rest a

/-- `M[a] <- v`, in address order. A cell value is never FILLER, so no entry is ever removed (R36, R56). -/
def Memory.write (m : Memory) (a : Nat) (v : CellValue) : Memory :=
  match m with
  | [] => [(a, v)]
  | (b, c) :: rest =>
    if a < b then (a, v) :: (b, c) :: rest
    else if a = b then (a, v) :: rest
    else (b, c) :: Memory.write rest a v

/-- Addresses strictly rising from `lo` on, all of them addresses of the machine. -/
def Memory.wfFrom (lo : Nat) (m : Memory) : Bool :=
  match m with
  | [] => true
  | (b, _) :: rest => decide (lo ≤ b) && decide (b < Config.memSize) && Memory.wfFrom (b + 1) rest

/-- The canonical form: strictly rising addresses within 0 to 9999. An entry is a cell value and so never equals FILLER, what an
unlisted address reads as. -/
def Memory.wf (m : Memory) : Bool := Memory.wfFrom 0 m

/-! ## Register updates -/

/-- `acc <- v`. -/
def State.setAcc (s : State) (v : CellValue) : State := { s with acc := some v }

/-- `sp <- n`. -/
def State.setSp (s : State) (n : Nat) : State := { s with sp := n }

/-- The memory replaced. -/
def State.setMem (s : State) (m : Memory) : State := { s with mem := m }

/-- What a host operation returns, recorded (D23, log 2). -/
def State.report (s : State) (r : Status) : State := { s with status := r }

/-! ## Completing an instruction and taking a fault -/

/-- An instruction of `n` words at address `p` completes without branching: `ip <- ip + n`, status `Ok` (R105, R106). -/
def State.finish (s : State) (p n : Nat) : State := { s with ip := some (p + n), status := .ok }

/-- A taken branch completes: `ip <- target`, status `Ok` (R105, R106). -/
def State.jump (s : State) (target : Nat) : State := { s with ip := some target, status := .ok }

/-- HALT completes: `halted <- true` and nothing else of the machine; status `HaltExecuted` (R106, R110). -/
def State.halt (s : State) : State := { s with halted := .yes, status := .haltExecuted }

/-- Taking a fault (R221, R238): nothing of the instruction is written, `halted <- true`, status `Fault(F, info)`. There is no vector and
no saved register. -/
def State.takeFault (s : State) (f : Fault) : State := { s with halted := .yes, status := .fault f }

/-- What the host's recoveries from a halt have in common (R239): `halted <- false`. There is no return-from-fault instruction; `ip` and
everything else stay as the fault left them. -/
def State.clearHalted (s : State) : State := { s with halted := .no }

/-- One instruction (R103, R104): the rule's computation, given the instruction's own address `p`, which `ip` holds all through it (R24);
either all its writes, or the fault and none of them. With `ip` unset there is no instruction to run and `IpUnset` is raised, as at
fetch (R101, R230; log 26). -/
def perform (s : State) (rule : Nat → Except Fault State) : Host.Outcome State Fault Refusal :=
  match s.ip with
  | none => .next (s.takeFault .ipUnset)
  | some p =>
    match rule p with
    | .ok t => .next t
    | .error f => .next (s.takeFault f)

/-! ## The checked primitives -/

/-- `InRange(a)` (R54). -/
def inRange (a : Int) : Bool := decide (0 ≤ a) && decide (a < (Config.memSize : Int))

/-- `MemRead(a, 1)` (R55): a cell value, or `none` for FILLER. -/
def memRead (s : State) (a : Nat) : Except Fault (Option CellValue) :=
  if inRange a then .ok (s.mem.read a) else .error (.addressOutOfRange a)

/-- `MemWrite(a, 1, v)` (R56). -/
def memWrite (s : State) (a : Nat) (v : CellValue) : Except Fault State :=
  if inRange a then .ok (s.setMem (s.mem.write a v)) else .error (.addressOutOfRange a)

/-- `DataRead(a)` (R57): a cell still holding FILLER is `InvalidWord`. -/
def dataRead (s : State) (a : Nat) : Except Fault CellValue := do
  match ← memRead s a with
  | some c => .ok c
  | none => .error (.invalidWord (.mem a))

/-- `Num(c, a)` (R58): the integer a numeric word stands for; `InvalidWord` on a cell value led by 2 to 9. -/
def num (c : CellValue) (src : Src) : Except Fault Int :=
  if c.isNumeric then .ok (decodeNum c) else .error (.invalidWord src)

/-- `Addr(c, a)` (R59): a pointer's content as an address. -/
def addr (c : CellValue) (src : Src) : Except Fault Nat := do
  let v ← num c src
  if v < 0 then .error (.addressOutOfRange v) else .ok v.toNat

/-- `AccRead()` (R22). -/
def accRead (s : State) : Except Fault CellValue :=
  match s.acc with
  | none => .error .accUnset
  | some c => .ok c

/-! ## The StackManager -/

/-- `Push(v)` (R131): the check comes before both writes. -/
def push (s : State) (v : CellValue) : Except Fault State :=
  if (s.sp : Int) - 1 < 0 then .error (.stackOverflow s.sp)
  else do
    let t ← memWrite s (s.sp - 1) v
    .ok (t.setSp (s.sp - 1))

/-- `Pop()` (R132): the check comes before the read; the cell read is not cleared. -/
def pop (s : State) : Except Fault (CellValue × State) :=
  if s.sp + 1 > s.bp ∨ s.sp = s.bp then .error (.stackUnderflow s.sp)
  else do
    let v ← dataRead s s.sp
    .ok (v, s.setSp (s.sp + 1))

/-! ## State machines that are functions of the state -/

/-- The engine's three states (R34). -/
inductive EngineState where
  | notLoaded
  | ready
  | halted
deriving DecidableEq, Repr

/-- The engine state of a machine state (R34): NotLoaded whatever `halted` holds when no program is loaded (D19). -/
def engineState (s : State) : EngineState :=
  if s.loaded = false then .notLoaded else if s.halted = .yes then .halted else .ready

/-- The three stack-protection states (R133). -/
inductive StackState where
  | empty
  | partly
  | full
deriving DecidableEq, Repr

/-- The stack-protection state, a function of `sp` and `bp` alone (R133): Empty, Full, and Partial between them. -/
def stackState (s : State) : StackState :=
  if s.sp = s.bp then .empty else if s.sp = 0 then .full else .partly

end Sys2Proof.Machine
end

