-- ==== Sys2Proof/Machine/Flags.lean ====
section
/-!
DEFINITION. The flags and the arithmetic (spec/10_state.md R28; spec/44_arith.md R150 to R152).
-/

namespace Sys2Proof.Machine

/-- `SetFlags(r)` (R28), from the integer result before encoding. -/
def State.setFlags (s : State) (r : Int) : State := { s with zero := decide (r = 0), negative := decide (r < 0) }

/-- `CheckRange(r)` (R151, D5, log 10). -/
def checkRange (r : Int) : Except Fault Unit :=
  if r < -Config.magMax ∨ r > Config.magMax then .error (.arithmeticOverflow r) else .ok ()

/-- The three accumulator operations (R150). -/
inductive ArithOp where
  | add
  | sub
  | mul
deriving DecidableEq, Repr

/-- `x op y` on mathematical integers, `x` the accumulator (R150, R152). -/
def ArithOp.apply (op : ArithOp) (x y : Int) : Int :=
  match op with
  | .add => x + y
  | .sub => x - y
  | .mul => x * y

/-- `Arith(op, c, src)` (R152), on an operand that has been read. -/
def arith (op : ArithOp) (c : CellValue) (src : Src) (s : State) : Except Fault State := do
  let u ← accRead s
  let x ← num u .acc
  let y ← num c src
  checkRange (op.apply x y)
  .ok ((s.setAcc (encodeNum (op.apply x y))).setFlags (op.apply x y))

/-- The common body of INC and DEC (R120 to R122): the cell read, interpreted, `d` added, range-checked, written back, flags set. -/
def addToCell (a : Nat) (d : Int) (s : State) : Except Fault State := do
  let c ← dataRead s a
  let x ← num c (.mem a)
  checkRange (x + d)
  let t ← memWrite s a (encodeNum (x + d))
  .ok (t.setFlags (x + d))

end Sys2Proof.Machine
end

