-- ==== Sys2Proof/Machine/Operands.lean ====
section
/-!
DEFINITION. Operand forms (spec/30_encoding.md R82; spec/46_family9.md R181 to R184): each gives the operand value and where it came from.
A direct operand is `dataRead` at the field itself (R140). The fault order is the order of the reads (R185, R237).
-/

namespace Sys2Proof.Machine

/-- A direct operand: the cell at the field's address (R82, R140). -/
def operandDirect (a : Nat) (s : State) : Except Fault (CellValue × Src) := do
  let c ← dataRead s a
  .ok (c, .mem a)

/-- Short immediate (R181): the two-digit field, zero-extended; no read and no fault. -/
def operandI (xx : Nat) : Except Fault (CellValue × Src) := .ok (zext5 xx, .imm)

/-- Word immediate (R182): the operand word whole, from the cell after the instruction word at `p`. -/
def operandIW (w : CellValue) (p : Nat) : Except Fault (CellValue × Src) := .ok (w, .mem (p + 1))

/-- From the address of the pointer cell to the operand: `DataRead`, `Addr`, `DataRead` (R183). -/
def throughPointer (a : Nat) (s : State) : Except Fault (CellValue × Src) := do
  let q ← dataRead s a
  let b ← addr q (.mem a)
  let c ← dataRead s b
  .ok (c, .mem b)

/-- Short indirect (R183): the field is the pointer cell's address. -/
def operandN (xx : Nat) (s : State) : Except Fault (CellValue × Src) := throughPointer xx s

/-- Word indirect (R184): the operand word, read from the cell after the instruction word at `p`, names the pointer cell's address. -/
def operandNW (w : CellValue) (p : Nat) (s : State) : Except Fault (CellValue × Src) := do
  let a ← addr w (.mem (p + 1))
  throughPointer a s

end Sys2Proof.Machine
end

