-- ==== Sys2Proof/Machine/Arith.lean ====
section
/-!
DEFINITION. ADD, SUB and MUL with a direct operand (spec/44_arith.md R153 to R155).
-/

namespace Sys2Proof.Machine

/-- ADD (R153): `acc := acc + M[a]`, flags set; the operand is read before `acc` (R237). -/
def execAdd (a : Nat) (s : State) : Host.Outcome State Fault Refusal :=
  perform s fun p => do
    let (c, src) ← operandDirect a s
    let t ← arith .add c src s
    .ok (t.finish p 1)

/-- SUB (R154): `acc := acc - M[a]`, flags set; the operand is read before `acc` (R237). -/
def execSub (a : Nat) (s : State) : Host.Outcome State Fault Refusal :=
  perform s fun p => do
    let (c, src) ← operandDirect a s
    let t ← arith .sub c src s
    .ok (t.finish p 1)

/-- MUL (R155): `acc := acc × M[a]`, flags set; the operand is read before `acc` (R237). -/
def execMul (a : Nat) (s : State) : Host.Outcome State Fault Refusal :=
  perform s fun p => do
    let (c, src) ← operandDirect a s
    let t ← arith .mul c src s
    .ok (t.finish p 1)

end Sys2Proof.Machine
end

