-- ==== Sys2Proof/Machine/Branch.lean ====
section
/-!
DEFINITION. The five branches (spec/45_branch.md R170 to R175). Every target is the field itself.
-/

namespace Sys2Proof.Machine

/-- BR (R171). -/
def execBr (a : Nat) (s : State) : Host.Outcome State Fault Refusal :=
  perform s fun _ => .ok (s.jump a)

/-- BRN (R172): taken iff the sign digit of `acc` is 1; the flag is not consulted. -/
def execBrn (a : Nat) (s : State) : Host.Outcome State Fault Refusal :=
  perform s fun p => do
    let u ← accRead s
    .ok (if u.d0.val = 1 then s.jump a else s.finish p 1)

/-- BRZ (R173): taken iff the four magnitude digits of `acc` are 0000, whatever its leading digit. -/
def execBrz (a : Nat) (s : State) : Host.Outcome State Fault Refusal :=
  perform s fun p => do
    let u ← accRead s
    .ok (if magnitude u = 0 then s.jump a else s.finish p 1)

/-- BRNF (R174): taken iff the flag `negative` is set; `acc` is not read. -/
def execBrnf (a : Nat) (s : State) : Host.Outcome State Fault Refusal :=
  perform s fun p => .ok (if s.negative = true then s.jump a else s.finish p 1)

/-- BRZF (R175): taken iff the flag `zero` is set; `acc` is not read. -/
def execBrzf (a : Nat) (s : State) : Host.Outcome State Fault Refusal :=
  perform s fun p => .ok (if s.zero = true then s.jump a else s.finish p 1)

end Sys2Proof.Machine
end

