-- ==== Sys2Proof/Machine/Family9.lean ====
section
/-!
DEFINITION. Family 9: five operations, each with four operand forms (spec/46_family9.md R180 to R205), under the layout of log 7.
Each instruction resolves its operand, then applies its operation, then advances `ip` by its word count (R185).
-/

namespace Sys2Proof.Machine

/-! ## Push forms (R185, R186 to R189): the operand is pushed, `acc` is neither read nor written -/

/-- PUSHI (R186): push a short immediate operand. -/
def execPushi (xx : Nat) (s : State) : Host.Outcome State Fault Refusal :=
  perform s fun p => do
    let (c, _) ← operandI xx
    let t ← push s c
    .ok (t.finish p 1)

/-- PUSHIW (R187): push a word immediate operand. -/
def execPushiw (w : CellValue) (s : State) : Host.Outcome State Fault Refusal :=
  perform s fun p => do
    let (c, _) ← operandIW w p
    let t ← push s c
    .ok (t.finish p 2)

/-- PUSHN (R188): push a short indirect operand. -/
def execPushn (xx : Nat) (s : State) : Host.Outcome State Fault Refusal :=
  perform s fun p => do
    let (c, _) ← operandN xx s
    let t ← push s c
    .ok (t.finish p 1)

/-- PUSHNW (R189): push a word indirect operand. -/
def execPushnw (w : CellValue) (s : State) : Host.Outcome State Fault Refusal :=
  perform s fun p => do
    let (c, _) ← operandNW w p s
    let t ← push s c
    .ok (t.finish p 2)

/-! ## Load forms (R185, R190 to R193): transport, flags unchanged -/

/-- LDI (R190): load a short immediate operand. -/
def execLdi (xx : Nat) (s : State) : Host.Outcome State Fault Refusal :=
  perform s fun p => do
    let (c, _) ← operandI xx
    .ok ((s.setAcc c).finish p 1)

/-- LDIW (R191): load a word immediate operand. -/
def execLdiw (w : CellValue) (s : State) : Host.Outcome State Fault Refusal :=
  perform s fun p => do
    let (c, _) ← operandIW w p
    .ok ((s.setAcc c).finish p 2)

/-- LDN (R192): load a short indirect operand. -/
def execLdn (xx : Nat) (s : State) : Host.Outcome State Fault Refusal :=
  perform s fun p => do
    let (c, _) ← operandN xx s
    .ok ((s.setAcc c).finish p 1)

/-- LDNW (R193): load a word indirect operand. -/
def execLdnw (w : CellValue) (s : State) : Host.Outcome State Fault Refusal :=
  perform s fun p => do
    let (c, _) ← operandNW w p s
    .ok ((s.setAcc c).finish p 2)

/-! ## Add forms (R185, R194 to R197): `acc` is the left operand, flags set from the result -/

/-- ADDI (R194): add a short immediate operand. -/
def execAddi (xx : Nat) (s : State) : Host.Outcome State Fault Refusal :=
  perform s fun p => do
    let (c, src) ← operandI xx
    let t ← arith .add c src s
    .ok (t.finish p 1)

/-- ADDIW (R195): add a word immediate operand. -/
def execAddiw (w : CellValue) (s : State) : Host.Outcome State Fault Refusal :=
  perform s fun p => do
    let (c, src) ← operandIW w p
    let t ← arith .add c src s
    .ok (t.finish p 2)

/-- ADDN (R196): add a short indirect operand. -/
def execAddn (xx : Nat) (s : State) : Host.Outcome State Fault Refusal :=
  perform s fun p => do
    let (c, src) ← operandN xx s
    let t ← arith .add c src s
    .ok (t.finish p 1)

/-- ADDNW (R197): add a word indirect operand. -/
def execAddnw (w : CellValue) (s : State) : Host.Outcome State Fault Refusal :=
  perform s fun p => do
    let (c, src) ← operandNW w p s
    let t ← arith .add c src s
    .ok (t.finish p 2)

/-! ## Subtract forms (R185, R198 to R201): `acc` is the left operand, flags set from the result -/

/-- SUBI (R198): subtract a short immediate operand. -/
def execSubi (xx : Nat) (s : State) : Host.Outcome State Fault Refusal :=
  perform s fun p => do
    let (c, src) ← operandI xx
    let t ← arith .sub c src s
    .ok (t.finish p 1)

/-- SUBIW (R199): subtract a word immediate operand. -/
def execSubiw (w : CellValue) (s : State) : Host.Outcome State Fault Refusal :=
  perform s fun p => do
    let (c, src) ← operandIW w p
    let t ← arith .sub c src s
    .ok (t.finish p 2)

/-- SUBN (R200): subtract a short indirect operand. -/
def execSubn (xx : Nat) (s : State) : Host.Outcome State Fault Refusal :=
  perform s fun p => do
    let (c, src) ← operandN xx s
    let t ← arith .sub c src s
    .ok (t.finish p 1)

/-- SUBNW (R201): subtract a word indirect operand. -/
def execSubnw (w : CellValue) (s : State) : Host.Outcome State Fault Refusal :=
  perform s fun p => do
    let (c, src) ← operandNW w p s
    let t ← arith .sub c src s
    .ok (t.finish p 2)

/-! ## Multiply forms (R185, R202 to R205): `acc` is the left operand, flags set from the result -/

/-- MULI (R202): multiply by a short immediate operand. -/
def execMuli (xx : Nat) (s : State) : Host.Outcome State Fault Refusal :=
  perform s fun p => do
    let (c, src) ← operandI xx
    let t ← arith .mul c src s
    .ok (t.finish p 1)

/-- MULIW (R203): multiply by a word immediate operand. -/
def execMuliw (w : CellValue) (s : State) : Host.Outcome State Fault Refusal :=
  perform s fun p => do
    let (c, src) ← operandIW w p
    let t ← arith .mul c src s
    .ok (t.finish p 2)

/-- MULN (R204): multiply by a short indirect operand. -/
def execMuln (xx : Nat) (s : State) : Host.Outcome State Fault Refusal :=
  perform s fun p => do
    let (c, src) ← operandN xx s
    let t ← arith .mul c src s
    .ok (t.finish p 1)

/-- MULNW (R205): multiply by a word indirect operand. -/
def execMulnw (w : CellValue) (s : State) : Host.Outcome State Fault Refusal :=
  perform s fun p => do
    let (c, src) ← operandNW w p s
    let t ← arith .mul c src s
    .ok (t.finish p 2)

end Sys2Proof.Machine
end

