-- ==== Sys2Proof/Machine/IncDec.lean ====
section
/-!
DEFINITION. INC and DEC, on a memory cell (spec/41_incdec.md R120 to R122).
-/

namespace Sys2Proof.Machine

/-- INC (R121): the cell plus one, flags set; `acc` is neither read nor written. -/
def execInc (a : Nat) (s : State) : Host.Outcome State Fault Refusal :=
  perform s fun p => do
    let t ← addToCell a 1 s
    .ok (t.finish p 1)

/-- DEC (R122): the cell minus one, flags set; `acc` is neither read nor written. -/
def execDec (a : Nat) (s : State) : Host.Outcome State Fault Refusal :=
  perform s fun p => do
    let t ← addToCell a (-1) s
    .ok (t.finish p 1)

end Sys2Proof.Machine
end

