-- ==== Sys2Proof/Machine/LoadStore.lean ====
section
/-!
DEFINITION. LOAD and STORE, direct transport between a cell and `acc` (spec/43_loadstore.md R140 to R142).
-/

namespace Sys2Proof.Machine

/-- LOAD (R141): all five digits copied, flags unchanged. -/
def execLoad (a : Nat) (s : State) : Host.Outcome State Fault Refusal :=
  perform s fun p => do
    let (c, _) ← operandDirect a s
    .ok ((s.setAcc c).finish p 1)

/-- STORE (R142): `acc` copied to any cell, code and stack included. -/
def execStore (a : Nat) (s : State) : Host.Outcome State Fault Refusal :=
  perform s fun p => do
    let v ← accRead s
    let t ← memWrite s a v
    .ok (t.finish p 1)

end Sys2Proof.Machine
end

