-- ==== Sys2Proof/Machine/Stack.lean ====
section
/-!
DEFINITION. PUSH and POP (spec/42_stack.md R134, R135).
-/

namespace Sys2Proof.Machine

/-- PUSH (R134): `acc` transported to the stack; `AccUnset` comes before `StackOverflow`. -/
def execPush (s : State) : Host.Outcome State Fault Refusal :=
  perform s fun p => do
    let v ← accRead s
    let t ← push s v
    .ok (t.finish p 1)

/-- POP (R135): the top of the stack transported to `acc`; the popped cell keeps its content. -/
def execPop (s : State) : Host.Outcome State Fault Refusal :=
  perform s fun p => do
    let (v, t) ← pop s
    .ok ((t.setAcc v).finish p 1)

end Sys2Proof.Machine
end

