-- ==== Sys2Proof/Machine/System.lean ====
section
/-!
DEFINITION. HALT (spec/40_engine.md R110).
-/

namespace Sys2Proof.Machine

/-- HALT (R110): `halted <- true` and nothing else; `ip` keeps the HALT's own address. -/
def execHalt (s : State) : Host.Outcome State Fault Refusal :=
  perform s fun _ => .ok s.halt

end Sys2Proof.Machine
end

