-- ==== Sys2Proof/Machine/Dispatch.lean ====
section
/-!
DEFINITION. One arm per instruction, each one call of its meaning (spec/40_engine.md R103).
-/

namespace Sys2Proof.Machine

def exec (i : Instr) (s : State) : Host.Outcome State Fault Refusal :=
  match i with
  | .halt => Sys2Proof.Machine.execHalt s
  | .inc a => Sys2Proof.Machine.execInc a s
  | .dec a => Sys2Proof.Machine.execDec a s
  | .push => Sys2Proof.Machine.execPush s
  | .pop => Sys2Proof.Machine.execPop s
  | .load a => Sys2Proof.Machine.execLoad a s
  | .store a => Sys2Proof.Machine.execStore a s
  | .add a => Sys2Proof.Machine.execAdd a s
  | .sub a => Sys2Proof.Machine.execSub a s
  | .mul a => Sys2Proof.Machine.execMul a s
  | .br a => Sys2Proof.Machine.execBr a s
  | .brn a => Sys2Proof.Machine.execBrn a s
  | .brz a => Sys2Proof.Machine.execBrz a s
  | .brnf a => Sys2Proof.Machine.execBrnf a s
  | .brzf a => Sys2Proof.Machine.execBrzf a s
  | .pushi xx => Sys2Proof.Machine.execPushi xx s
  | .pushiw w => Sys2Proof.Machine.execPushiw w s
  | .pushn xx => Sys2Proof.Machine.execPushn xx s
  | .pushnw w => Sys2Proof.Machine.execPushnw w s
  | .ldi xx => Sys2Proof.Machine.execLdi xx s
  | .ldiw w => Sys2Proof.Machine.execLdiw w s
  | .ldn xx => Sys2Proof.Machine.execLdn xx s
  | .ldnw w => Sys2Proof.Machine.execLdnw w s
  | .addi xx => Sys2Proof.Machine.execAddi xx s
  | .addiw w => Sys2Proof.Machine.execAddiw w s
  | .addn xx => Sys2Proof.Machine.execAddn xx s
  | .addnw w => Sys2Proof.Machine.execAddnw w s
  | .subi xx => Sys2Proof.Machine.execSubi xx s
  | .subiw w => Sys2Proof.Machine.execSubiw w s
  | .subn xx => Sys2Proof.Machine.execSubn xx s
  | .subnw w => Sys2Proof.Machine.execSubnw w s
  | .muli xx => Sys2Proof.Machine.execMuli xx s
  | .muliw w => Sys2Proof.Machine.execMuliw w s
  | .muln xx => Sys2Proof.Machine.execMuln xx s
  | .mulnw w => Sys2Proof.Machine.execMulnw w s

end Sys2Proof.Machine
end

