-- ==== Sys2Proof/Machine/Fetch.lean ====
section
/-!
DEFINITION. What a step does before its instruction runs (spec/40_engine.md R100 to R102): the two guards, the first write of `halted`,
fetch, decode and the operand word.
-/

namespace Sys2Proof.Machine

/-- The guards in their order (R100, D19): `NotLoaded`, then `AlreadyHalted`. -/
def guardOf (s : State) : Option Guard :=
  if s.loaded = false then some .notLoaded
  else if s.halted = .yes then some .alreadyHalted
  else none

/-- The first execution attempt writes false into `halted` if it is unset (R33, R100). -/
def State.beginStep (s : State) : State := { s with halted := if s.halted = .unset then .no else s.halted }

/-- Fetch (R101): the instruction word and its address. -/
def fetchWord (s : State) : Except Fault (Nat × CellValue) :=
  match s.ip with
  | none => .error .ipUnset
  | some p => do
    match ← memRead s p with
    | none => .error (.unknownInstruction p)
    | some c => .ok (p, c)

/-- Fetch and decode (R101, R102): the instruction to perform, its operand word read if it has one. -/
def fetchInstr (s : State) : Except Fault Instr := do
  let (p, c) ← fetchWord s
  match decodeHead c with
  | .unknown => .error (.unknownInstruction p)
  | .oneWord i => .ok i
  | .twoWord op indirect => do
    let w ← dataRead s (p + 1)
    .ok (fam9Word op indirect w)

/-- Where `State.withFetchWord` stores an instruction: at `ip` when two cells from there exist, else at 0 (log 23). -/
def fetchPlace (s : State) : Nat :=
  match s.ip with
  | none => 0
  | some p => if p + 1 < Config.memSize then p else 0

/-- The cells `w` numbers stored at the place of the next fetch, by what stands for the host's `load` and `setStartAddress`: `loaded` true,
`halted` not true, `ip` at the place (R266, R268, R270; log 23). Cells `w` does not number leave the memory as it is. -/
def placeFetchWord (s : State) (nbits w : Nat) : State :=
  let a := fetchPlace s
  let m :=
    match cellsOfTableWord nbits w with
    | none => s.mem
    | some (c, v) => (s.mem.write a c).write (a + 1) v
  { s with mem := m, ip := some a, loaded := true, halted := if s.halted = .yes then .no else s.halted }

end Sys2Proof.Machine
end

