-- ==== Sys2Proof/Machine/Step.lean ====
section
/-!
DEFINITION. One `step()` (spec/40_engine.md R107): guards, the first write of `halted`, fetch and decode, the instruction.
-/

namespace Sys2Proof.Machine

/-- `Step()` (R107). A refused step changes nothing but the reported status; a fault at fetch or decode is taken (R221). -/
def step (s : State) : Host.Outcome State Fault Refusal :=
  match guardOf s with
  | some g => .next (s.report (.refused g))
  | none =>
    match fetchInstr s.beginStep with
    | .error f => .next (s.beginStep.takeFault f)
    | .ok i => exec i s.beginStep

/-- `s` with the instruction that `w` numbers placed where `step` fetches next, so that the next step runs it (log 23, log 25). -/
def State.withFetchWord (s : State) (nbits w : Nat) : State := placeFetchWord s nbits w

end Sys2Proof.Machine
end

