-- ==== Sys2Proof/Machine/Run.lean ====
section
/-!
DEFINITION. `run()` (spec/40_engine.md R108): steps until one ends the run or the bound is reached. The counter is local to the call (R20).
-/

namespace Sys2Proof.Machine

/-- The statuses of a step that end a run (R108): everything but `Ok`. -/
def Status.endsRun (r : Status) : Bool :=
  match r with
  | .ok => false
  | _ => true

/-- The loop of `Run()` with `n` steps left (R108). A step of this model always answers a next state; the other two outcomes are passed
on unchanged (log 18). -/
def runFor (n : Nat) (s : State) : Host.Outcome State Fault Refusal :=
  match n with
  | 0 => .next (s.report .boundExhausted)
  | k + 1 =>
    match step s with
    | .next t => if t.status.endsRun then .next t else runFor k t
    | .fault f => .fault f
    | .refused r => .refused r

/-- `run()` (R108), with the bound `RUN_STEP_BOUND`. -/
def run (s : State) : Host.Outcome State Fault Refusal := runFor Config.runStepBound s

end Sys2Proof.Machine
end

