-- ==== Sys2Proof/Machine/Driver.lean ====
section
/-!
DEFINITION. The host operations (spec/70_reset_and_hazards.md R262 to R271): `reset()`, `load`, `setStartAddress`, the closed list of
calls, and the read-only accessors.
-/

namespace Sys2Proof.Machine

/-! ## `reset()` -/

/-- `n` cells holding `"00000"`, from address `a` up. -/
def zeroCells (n a : Nat) : Memory :=
  match n with
  | 0 => []
  | k + 1 => (a, CellValue.zero) :: zeroCells k (a + 1)

/-- The host operation `reset()` (R265, D6, log 11): every cell `"00000"`, `halted <- false`, nothing else. -/
def State.hostReset (s : State) : State :=
  ((s.setMem (zeroCells Config.memSize 0)).clearHalted).report .done

/-! ## `setStartAddress` -/

/-- `setStartAddress(addr)` (R268, D18, log 17). -/
def State.setStartAddress (s : State) (a : Int) : State :=
  if inRange a then { s with ip := some a.toNat, status := .done } else s.report (.refused .badStartAddress)

/-! ## `load`: the machine-code text (R266, D16, D17, log 16) -/

/-- A line of the machine-code text. -/
abbrev Line := List Char

/-- A blank between tokens (R266; log 16). -/
def isBlank (ch : Char) : Bool := ch.isWhitespace

/-- The line with everything from the first `;` removed (R266). -/
def stripComment (l : Line) : Line := l.takeWhile (fun ch => ch != ';')

/-- The tokens of a text: its runs of characters that are not blanks. -/
def tokensFrom (cur : List Char) (l : Line) : List (List Char) :=
  match l with
  | [] => if cur.isEmpty then [] else [cur.reverse]
  | ch :: rest =>
    if isBlank ch then (if cur.isEmpty then tokensFrom [] rest else cur.reverse :: tokensFrom [] rest)
    else tokensFrom (ch :: cur) rest

/-- The tokens of a line (R266). -/
def lineTokens (l : Line) : List (List Char) := tokensFrom [] (stripComment l)

/-- A numeric token (D17): one or more decimal digits and nothing else. -/
def isNumeral (t : List Char) : Bool := !t.isEmpty && t.all Char.isDigit

/-- The digit a character writes. -/
def charDigit (ch : Char) : Nat := ch.toNat - '0'.toNat

/-- `value(t)` of a numeral. -/
def numeralValue (t : List Char) : Nat := t.foldl (fun n ch => Config.radix * n + charDigit ch) 0

/-- One line (R266): the address and the cell value it writes, or none for a violation. Normalisation pads the digit string on the left
(C9), so it is not `encode` of the numeral's value. -/
def parseLine (l : Line) : Option (Nat × CellValue) :=
  match lineTokens l with
  | [ta, tv] =>
    if isNumeral ta && isNumeral tv && inRange (numeralValue ta) && decide (tv.length ≤ Config.wordDigits) then
      match cellOfNat (numeralValue tv) with
      | some c => some (numeralValue ta, c)
      | none => none
    else none
  | _ => none

/-- The lines applied in order up to the first violation, and whether there was none (R266): no rollback. -/
def applyLines (ls : List Line) (m : Memory) : Memory × Bool :=
  match ls with
  | [] => (m, true)
  | l :: rest =>
    match parseLine l with
    | none => (m, false)
    | some (a, c) => applyLines rest (m.write a c)

/-- `load(path)` (R266): `file` is the lines of the file at the path, none when it is missing. -/
def State.load (s : State) (file : Option (List Line)) : State :=
  match file with
  | none => { s with loaded := false, status := .loadError }
  | some ls =>
    match applyLines ls s.mem with
    | (m, true) => (({ s with mem := m, loaded := true }).clearHalted).report .loadOk
    | (m, false) => { s with mem := m, loaded := false, status := .loadError }

/-! ## The closed list of operations that change the state (R262) -/

/-- A call of the host (R262). -/
inductive HostCall where
  | load (file : Option (List Line))
  | reset
  | setStartAddress (a : Int)
  | step
  | run
deriving DecidableEq, Repr

/-- One host operation, run to its end (R262, R271). -/
def call (c : HostCall) (s : State) : Host.Outcome State Fault Refusal :=
  match c with
  | .load file => .next (s.load file)
  | .reset => .next s.hostReset
  | .setStartAddress a => .next (s.setStartAddress a)
  | .step => step s
  | .run => run s

/-! ## Accessors (R269, D24, log 21): read-only -/

/-- The decoded form of a raw word: the integer of a numeric word, absent for `unset`, FILLER and a cell value led by 2 to 9. -/
def decodedForm (c : Option CellValue) : Option Int :=
  match c with
  | none => none
  | some w => if w.isNumeric then some (decodeNum w) else none

/-- The raw words of `n` cells from `a` up, FILLER as `none`; absent when the span leaves 0 to 9999. -/
def memoryRange (s : State) (a n : Nat) : Option (List (Option CellValue)) :=
  if a + n ≤ Config.memSize then some ((List.range' a n).map s.mem.read) else none

/-- The decoded words of a memory range. -/
def memoryRangeDecoded (s : State) (a n : Nat) : Option (List (Option Int)) :=
  (memoryRange s a n).map (List.map decodedForm)

/-- The raw form of the accumulator; none is `unset`. -/
def accRaw (s : State) : Option CellValue := s.acc

/-- The decoded form of the accumulator. -/
def accDecoded (s : State) : Option Int := decodedForm s.acc

/-- The stack pointers `sp` and `bp`. -/
def stackPointers (s : State) : Nat × Nat := (s.sp, s.bp)

/-- The flags `zero` and `negative`. -/
def flagsOf (s : State) : Bool × Bool := (s.zero, s.negative)

/-- The other observable state (D24): `ip`, `loaded` and `halted`. -/
def engineView (s : State) : Option Nat × Bool × Halted := (s.ip, s.loaded, s.halted)

end Sys2Proof.Machine
end

