-- ==== Sys2Proof/Safety.lean ====
section
/-!
DEFINITION. The terms in which claims are made: what a good state is, what an operand resolves to, and which instruction may touch what.
They are written from the spec's rules and do not call the meanings they speak of.
-/

namespace Sys2Proof.Machine

/-! ## States -/

/-- The invariant of the machine: `ip` is unset or 0 to 10000 (R24), 0 ≤ `sp` ≤ `bp` (R30), `bp` is 9999 (R31), the flags are never both
true (R27), the memory is in canonical form, and every live stack cell has been written (R132). -/
structure State.Inv (s : State) : Prop where
  ip_le : ∀ p, s.ip = some p → p ≤ 10000
  sp_le : s.sp ≤ s.bp
  bp_eq : s.bp = 9999
  flags : ¬(s.zero = true ∧ s.negative = true)
  mem_wf : s.mem.wf = true
  stack_written : ∀ a, s.sp ≤ a → a < s.bp → s.mem.read a ≠ none

/-- Both guards of `step()` pass (R33, R34): execution is permitted. -/
abbrev State.Runnable (s : State) : Prop := s.loaded = true ∧ s.halted ≠ .yes

/-- A run ended well: the last step executed HALT (R111). -/
abbrev State.EndedWell (s : State) : Prop := s.halted = .yes ∧ s.status = .haltExecuted

/-- A run ended in a fault (R111). -/
abbrev State.Faulted (s : State) : Prop := s.halted = .yes ∧ ∃ f, s.status = .fault f

/-! ## Operands -/

/-- `m'` is `m` with the value `v` in cell `a` and every other cell as it was. -/
def Memory.Updated (m m' : Memory) (a : Nat) (v : CellValue) : Prop :=
  ∀ b, m'.read b = if b = a then some v else m.read b

/-- The cell value `q` names the address `b` (R59): a numeric word that stands for `b`. -/
def PointsTo (q : CellValue) (b : Nat) : Prop := q.d0.val ≤ 1 ∧ decodeNum q = (b : Int)

/-- Through the pointer cell `a` lies the final cell `b`, which holds `c` (R183). -/
def Resolves (s : State) (a b : Nat) (c : CellValue) : Prop :=
  a ≤ 9999 ∧ ∃ q, s.mem.read a = some q ∧ PointsTo q b ∧ b ≤ 9999 ∧ s.mem.read b = some c

/-- `u op c = r` on the integers two numeric words stand for, with `r` in range (R150, R151). -/
def Computes (op : Int → Int → Int) (u c : CellValue) (r : Int) : Prop :=
  u.d0.val ≤ 1 ∧ c.d0.val ≤ 1 ∧ op (decodeNum u) (decodeNum c) = r ∧ -9999 ≤ r ∧ r ≤ 9999

/-- The state after an arithmetic instruction of `n` words at `p` with result `r`: `acc`, the flags and `ip` written (R152, R105). -/
def State.afterArith (s : State) (r : Int) (p n : Nat) : State :=
  { s with acc := some (encodeNum r), zero := decide (r = 0), negative := decide (r < 0), ip := some (p + n), status := .ok }

/-- The state after a fault: only `halted` and the reported status differ (R221). -/
def State.afterFault (s : State) (f : Fault) : State := { s with halted := .yes, status := .fault f }

/-- The 15 accumulator arithmetic forms with their operand resolved: instruction `i` at address `p` applies `op` to `acc` and the operand
`c`, which came from `src` (R152 to R155, R181 to R185, R194 to R205). -/
inductive ArithForm (s : State) (p : Nat) : Instr → (Int → Int → Int) → CellValue → Src → Prop where
  | add (a : Nat) (c : CellValue) : a ≤ 9999 → s.mem.read a = some c → ArithForm s p (.add a) (fun x y => x + y) c (.mem a)
  | addi (xx : Nat) : xx ≤ 99 → ArithForm s p (.addi xx) (fun x y => x + y) (zext5 xx) .imm
  | addiw (w : CellValue) : ArithForm s p (.addiw w) (fun x y => x + y) w (.mem (p + 1))
  | addn (xx b : Nat) (c : CellValue) : xx ≤ 99 → Resolves s xx b c → ArithForm s p (.addn xx) (fun x y => x + y) c (.mem b)
  | addnw (w : CellValue) (a b : Nat) (c : CellValue) : PointsTo w a → Resolves s a b c →
      ArithForm s p (.addnw w) (fun x y => x + y) c (.mem b)
  | sub (a : Nat) (c : CellValue) : a ≤ 9999 → s.mem.read a = some c → ArithForm s p (.sub a) (fun x y => x - y) c (.mem a)
  | subi (xx : Nat) : xx ≤ 99 → ArithForm s p (.subi xx) (fun x y => x - y) (zext5 xx) .imm
  | subiw (w : CellValue) : ArithForm s p (.subiw w) (fun x y => x - y) w (.mem (p + 1))
  | subn (xx b : Nat) (c : CellValue) : xx ≤ 99 → Resolves s xx b c → ArithForm s p (.subn xx) (fun x y => x - y) c (.mem b)
  | subnw (w : CellValue) (a b : Nat) (c : CellValue) : PointsTo w a → Resolves s a b c →
      ArithForm s p (.subnw w) (fun x y => x - y) c (.mem b)
  | mul (a : Nat) (c : CellValue) : a ≤ 9999 → s.mem.read a = some c → ArithForm s p (.mul a) (fun x y => x * y) c (.mem a)
  | muli (xx : Nat) : xx ≤ 99 → ArithForm s p (.muli xx) (fun x y => x * y) (zext5 xx) .imm
  | muliw (w : CellValue) : ArithForm s p (.muliw w) (fun x y => x * y) w (.mem (p + 1))
  | muln (xx b : Nat) (c : CellValue) : xx ≤ 99 → Resolves s xx b c → ArithForm s p (.muln xx) (fun x y => x * y) c (.mem b)
  | mulnw (w : CellValue) (a b : Nat) (c : CellValue) : PointsTo w a → Resolves s a b c →
      ArithForm s p (.mulnw w) (fun x y => x * y) c (.mem b)

/-- The pointer cell's address of the five short indirect forms (R183). -/
def shortIndirect (i : Instr) : Option Nat :=
  match i with
  | .pushn xx | .ldn xx | .addn xx | .subn xx | .muln xx => some xx
  | _ => none

/-- The operand word of the five word indirect forms (R184). -/
def wordIndirect (i : Instr) : Option CellValue :=
  match i with
  | .pushnw w | .ldnw w | .addnw w | .subnw w | .mulnw w => some w
  | _ => none

/-- `n` pushes in a row, of the values in order (R136). -/
def pushAll (vs : List CellValue) (s : State) : Except Fault State :=
  match vs with
  | [] => .ok s
  | v :: rest => do
    let t ← push s v
    pushAll rest t

/-- `n` pops in a row, and the values they gave in order (R136). -/
def popAll (n : Nat) (s : State) : Except Fault (List CellValue × State) :=
  match n with
  | 0 => .ok ([], s)
  | k + 1 => do
    let (v, t) ← pop s
    let (vs, u) ← popAll k t
    .ok (v :: vs, u)

/-- The character that writes a digit in the machine-code text (R266). -/
def digitChar (d : Digit) : Char := Char.ofNat ('0'.toNat + d.val)

/-! ## Which instruction may touch what -/

/-- The instructions that read `acc` (R23): PUSH, STORE, ADD, SUB, MUL, BRN, BRZ and the 12 family-9 arithmetic forms. -/
def readsAcc (i : Instr) : Bool :=
  match i with
  | .halt => false
  | .inc _ => false
  | .dec _ => false
  | .push => true
  | .pop => false
  | .load _ => false
  | .store _ => true
  | .add _ => true
  | .sub _ => true
  | .mul _ => true
  | .br _ => false
  | .brn _ => true
  | .brz _ => true
  | .brnf _ => false
  | .brzf _ => false
  | .pushi _ => false
  | .pushiw _ => false
  | .pushn _ => false
  | .pushnw _ => false
  | .ldi _ => false
  | .ldiw _ => false
  | .ldn _ => false
  | .ldnw _ => false
  | .addi _ => true
  | .addiw _ => true
  | .addn _ => true
  | .addnw _ => true
  | .subi _ => true
  | .subiw _ => true
  | .subn _ => true
  | .subnw _ => true
  | .muli _ => true
  | .muliw _ => true
  | .muln _ => true
  | .mulnw _ => true

/-- The instructions that write `acc` (R23): POP, LOAD, ADD, SUB, MUL, the family-9 load forms and the 12 family-9 arithmetic forms. -/
def writesAcc (i : Instr) : Bool :=
  match i with
  | .halt => false
  | .inc _ => false
  | .dec _ => false
  | .push => false
  | .pop => true
  | .load _ => true
  | .store _ => false
  | .add _ => true
  | .sub _ => true
  | .mul _ => true
  | .br _ => false
  | .brn _ => false
  | .brz _ => false
  | .brnf _ => false
  | .brzf _ => false
  | .pushi _ => false
  | .pushiw _ => false
  | .pushn _ => false
  | .pushnw _ => false
  | .ldi _ => true
  | .ldiw _ => true
  | .ldn _ => true
  | .ldnw _ => true
  | .addi _ => true
  | .addiw _ => true
  | .addn _ => true
  | .addnw _ => true
  | .subi _ => true
  | .subiw _ => true
  | .subn _ => true
  | .subnw _ => true
  | .muli _ => true
  | .muliw _ => true
  | .muln _ => true
  | .mulnw _ => true

/-- The instructions that write the flags (R29): INC, DEC, ADD, SUB, MUL and the 12 family-9 arithmetic forms. -/
def writesFlags (i : Instr) : Bool :=
  match i with
  | .halt => false
  | .inc _ => true
  | .dec _ => true
  | .push => false
  | .pop => false
  | .load _ => false
  | .store _ => false
  | .add _ => true
  | .sub _ => true
  | .mul _ => true
  | .br _ => false
  | .brn _ => false
  | .brz _ => false
  | .brnf _ => false
  | .brzf _ => false
  | .pushi _ => false
  | .pushiw _ => false
  | .pushn _ => false
  | .pushnw _ => false
  | .ldi _ => false
  | .ldiw _ => false
  | .ldn _ => false
  | .ldnw _ => false
  | .addi _ => true
  | .addiw _ => true
  | .addn _ => true
  | .addnw _ => true
  | .subi _ => true
  | .subiw _ => true
  | .subn _ => true
  | .subnw _ => true
  | .muli _ => true
  | .muliw _ => true
  | .muln _ => true
  | .mulnw _ => true

/-- The instructions that push (R225): PUSH and the four family-9 push forms. -/
def pushes (i : Instr) : Bool :=
  match i with
  | .halt => false
  | .inc _ => false
  | .dec _ => false
  | .push => true
  | .pop => false
  | .load _ => false
  | .store _ => false
  | .add _ => false
  | .sub _ => false
  | .mul _ => false
  | .br _ => false
  | .brn _ => false
  | .brz _ => false
  | .brnf _ => false
  | .brzf _ => false
  | .pushi _ => true
  | .pushiw _ => true
  | .pushn _ => true
  | .pushnw _ => true
  | .ldi _ => false
  | .ldiw _ => false
  | .ldn _ => false
  | .ldnw _ => false
  | .addi _ => false
  | .addiw _ => false
  | .addn _ => false
  | .addnw _ => false
  | .subi _ => false
  | .subiw _ => false
  | .subn _ => false
  | .subnw _ => false
  | .muli _ => false
  | .muliw _ => false
  | .muln _ => false
  | .mulnw _ => false

/-- The cell an instruction stores to, computed as its meaning computes it: the field of INC, DEC and STORE, `sp - 1` for a push; none for
an instruction that stores nothing (R53, R61). -/
def storedCell (i : Instr) (s : State) : Option Nat :=
  match i with
  | .halt => none
  | .inc a => some a
  | .dec a => some a
  | .push => some (s.sp - 1)
  | .pop => none
  | .load _ => none
  | .store a => some a
  | .add _ => none
  | .sub _ => none
  | .mul _ => none
  | .br _ => none
  | .brn _ => none
  | .brz _ => none
  | .brnf _ => none
  | .brzf _ => none
  | .pushi _ => some (s.sp - 1)
  | .pushiw _ => some (s.sp - 1)
  | .pushn _ => some (s.sp - 1)
  | .pushnw _ => some (s.sp - 1)
  | .ldi _ => none
  | .ldiw _ => none
  | .ldn _ => none
  | .ldnw _ => none
  | .addi _ => none
  | .addiw _ => none
  | .addn _ => none
  | .addnw _ => none
  | .subi _ => none
  | .subiw _ => none
  | .subn _ => none
  | .subnw _ => none
  | .muli _ => none
  | .muliw _ => none
  | .muln _ => none
  | .mulnw _ => none

/-- The target of a branch that is taken in `s`; none for a branch not taken and for every other instruction (R171 to R175). -/
def branchTarget (i : Instr) (s : State) : Option Nat :=
  match i with
  | .halt => none
  | .inc _ => none
  | .dec _ => none
  | .push => none
  | .pop => none
  | .load _ => none
  | .store _ => none
  | .add _ => none
  | .sub _ => none
  | .mul _ => none
  | .br a => some a
  | .brn a => if ∃ u, s.acc = some u ∧ u.d0 = 1 then some a else none
  | .brz a => if ∃ u, s.acc = some u ∧ u.slice 1 4 = 0 then some a else none
  | .brnf a => if s.negative = true then some a else none
  | .brzf a => if s.zero = true then some a else none
  | .pushi _ => none
  | .pushiw _ => none
  | .pushn _ => none
  | .pushnw _ => none
  | .ldi _ => none
  | .ldiw _ => none
  | .ldn _ => none
  | .ldnw _ => none
  | .addi _ => none
  | .addiw _ => none
  | .addn _ => none
  | .addnw _ => none
  | .subi _ => none
  | .subiw _ => none
  | .subn _ => none
  | .subnw _ => none
  | .muli _ => none
  | .muliw _ => none
  | .muln _ => none
  | .mulnw _ => none

/-- The eight fault names without their information. -/
inductive FaultName where
  | unknownInstruction
  | stackOverflow
  | stackUnderflow
  | addressOutOfRange
  | invalidWord
  | accUnset
  | ipUnset
  | arithmeticOverflow
deriving DecidableEq, Repr

/-- The name of a fault (R223). -/
def faultName (f : Fault) : FaultName :=
  match f with
  | .unknownInstruction _ => .unknownInstruction
  | .stackOverflow _ => .stackOverflow
  | .stackUnderflow _ => .stackUnderflow
  | .addressOutOfRange _ => .addressOutOfRange
  | .invalidWord _ => .invalidWord
  | .accUnset => .accUnset
  | .ipUnset => .ipUnset
  | .arithmeticOverflow _ => .arithmeticOverflow

/-- The faults of an instruction's own rule, the table of R236 less the operand-word faults, which the step raises before the rule runs
(R102). -/
def mayRaise (i : Instr) : List FaultName :=
  match i with
  | .halt => []
  | .inc _ => [.invalidWord, .arithmeticOverflow]
  | .dec _ => [.invalidWord, .arithmeticOverflow]
  | .push => [.accUnset, .stackOverflow]
  | .pop => [.stackUnderflow]
  | .load _ => [.invalidWord]
  | .store _ => [.accUnset]
  | .add _ => [.invalidWord, .accUnset, .arithmeticOverflow]
  | .sub _ => [.invalidWord, .accUnset, .arithmeticOverflow]
  | .mul _ => [.invalidWord, .accUnset, .arithmeticOverflow]
  | .br _ => []
  | .brn _ => [.accUnset]
  | .brz _ => [.accUnset]
  | .brnf _ => []
  | .brzf _ => []
  | .pushi _ => [.stackOverflow]
  | .pushiw _ => [.stackOverflow]
  | .pushn _ => [.invalidWord, .addressOutOfRange, .stackOverflow]
  | .pushnw _ => [.invalidWord, .addressOutOfRange, .stackOverflow]
  | .ldi _ => []
  | .ldiw _ => []
  | .ldn _ => [.invalidWord, .addressOutOfRange]
  | .ldnw _ => [.invalidWord, .addressOutOfRange]
  | .addi _ => [.accUnset, .invalidWord, .arithmeticOverflow]
  | .addiw _ => [.invalidWord, .accUnset, .arithmeticOverflow]
  | .addn _ => [.invalidWord, .addressOutOfRange, .accUnset, .arithmeticOverflow]
  | .addnw _ => [.invalidWord, .addressOutOfRange, .accUnset, .arithmeticOverflow]
  | .subi _ => [.accUnset, .invalidWord, .arithmeticOverflow]
  | .subiw _ => [.invalidWord, .accUnset, .arithmeticOverflow]
  | .subn _ => [.invalidWord, .addressOutOfRange, .accUnset, .arithmeticOverflow]
  | .subnw _ => [.invalidWord, .addressOutOfRange, .accUnset, .arithmeticOverflow]
  | .muli _ => [.accUnset, .invalidWord, .arithmeticOverflow]
  | .muliw _ => [.invalidWord, .accUnset, .arithmeticOverflow]
  | .muln _ => [.invalidWord, .addressOutOfRange, .accUnset, .arithmeticOverflow]
  | .mulnw _ => [.invalidWord, .addressOutOfRange, .accUnset, .arithmeticOverflow]

end Sys2Proof.Machine
end

