-- ==== Sys2Proof/Certificates/Slice0/Obligations.lean ====
section
/-!
DEFINITION. The statements about the model, each with the rule of spec/ it formalises. Nothing is proved here.
A fault of the spec is taken in a next state (log 1), so `exec i s = .next (s.afterFault f)` says that `i` raises `f` in `s`.
-/

open Sys2Proof Sys2Proof.Machine

/-! ## The codec and the encoding -/

/-- R9. `decode` reads the sign digit and the magnitude; negative zero stands for 0; a cell value led by 2 to 9 is never decoded, because
`Num` faults first. -/
def Obligations.NumericWordsDecode : Prop :=
  (∀ w : CellValue, w.d0.val = 1 →
    decodeNum w = -((1000 * w.d1.val + 100 * w.d2.val + 10 * w.d3.val + w.d4.val : Nat) : Int)) ∧
  (∀ w : CellValue, w.d0.val = 0 →
    decodeNum w = ((1000 * w.d1.val + 100 * w.d2.val + 10 * w.d3.val + w.d4.val : Nat) : Int)) ∧
  decodeNum ⟨1, 0, 0, 0, 0⟩ = 0 ∧
  (∀ (w : CellValue) (src : Src), 2 ≤ w.d0.val → num w src = .error (.invalidWord src))

/-- R10. `encode` gives the sign digit and four magnitude digits; `decode` undoes it; `encode` undoes `decode` but for `"10000"`, which it
never produces; a value outside the range never reaches it, because `CheckRange` faults first. -/
def Obligations.EncodeDecodeNumbers : Prop :=
  (∀ v : Int, -9999 ≤ v → v ≤ 9999 →
    (encodeNum v).d0.val = (if v < 0 then 1 else 0) ∧ (encodeNum v).slice 1 4 = v.natAbs ∧
    decodeNum (encodeNum v) = v ∧ encodeNum v ≠ ⟨1, 0, 0, 0, 0⟩) ∧
  encodeNum 0 = ⟨0, 0, 0, 0, 0⟩ ∧
  (∀ w : CellValue, w.d0.val ≤ 1 → w ≠ ⟨1, 0, 0, 0, 0⟩ → encodeNum (decodeNum w) = w) ∧
  (∀ v : Int, v < -9999 ∨ 9999 < v → checkRange v = .error (.arithmeticOverflow v))

/-- 00_scope.md section 5.1 (`zext5`), the spec's decision D4 (log 9): a short immediate is `"000"` and its two digits, which is
`encode` of it. -/
def Obligations.ShortImmediateZeroExtends : Prop :=
  ∀ n : Nat, n ≤ 99 →
    (zext5 n).d0 = 0 ∧ (zext5 n).d1 = 0 ∧ (zext5 n).d2 = 0 ∧ (zext5 n).d3.val = n / 10 ∧ (zext5 n).d4.val = n % 10 ∧
    zext5 n = encodeNum n ∧ decodeNum (zext5 n) = n

/-- Decoding the words of a well-formed instruction gives it back with every operand, and the cells after it (30_encoding.md sections 2
and 3; the family-9 layout is the spec's decision D1, log 7). -/
def Obligations.DecodeReadsEncode : Prop :=
  ∀ (i : Instr) (rest : List CellValue), i.wellFormed = true → decodeWords (encode i ++ rest) = .ok (i, rest)

/-- Whatever decodes is well formed and is exactly the encoding of what it decodes to: no digit is ignored (30_encoding.md sections 2 and 3,
decisions D2 and D3, log 8). -/
def Obligations.EncodeReproducesDecodedWords : Prop :=
  ∀ (ws : List CellValue) (i : Instr) (rest : List CellValue),
    decodeWords ws = .ok (i, rest) → i.wellFormed = true ∧ ws = encode i ++ rest

/-- 30_encoding.md section 5: the illegal cell values are exactly the listed ranges (they rest on decisions D1 to D3, log 7 and log 8). -/
def Obligations.IllegalCellValues : Prop :=
  ∀ (c : CellValue) (n : Nat), n = 10000 * c.d0.val + 1000 * c.d1.val + 100 * c.d2.val + 10 * c.d3.val + c.d4.val →
    (decodeHead c = .unknown ↔
      (1 ≤ n ∧ n ≤ 999) ∨ (3001 ≤ n ∧ n ≤ 3999) ∨ (4001 ≤ n ∧ n ≤ 4999) ∨ (5000 ≤ n ∧ n ≤ 9999) ∨
      (90000 ≤ n ∧ n ≤ 90699) ∨ (90900 ≤ n ∧ n ≤ 90999) ∨
      (∃ o, 1 ≤ o ∧ o ≤ 5 ∧ 90000 + 1000 * o + 400 ≤ n ∧ n ≤ 90000 + 1000 * o + 999) ∨
      (∃ o, 1 ≤ o ∧ o ≤ 5 ∧ 90000 + 1000 * o + 101 ≤ n ∧ n ≤ 90000 + 1000 * o + 199) ∨
      (∃ o, 1 ≤ o ∧ o ≤ 5 ∧ 90000 + 1000 * o + 301 ≤ n ∧ n ≤ 90000 + 1000 * o + 399) ∨
      (96000 ≤ n ∧ n ≤ 99999))

/-- 30_encoding.md section 1: the instruction word alone tells the length (the family-9 layout is decision D1, log 7). -/
def Obligations.InstructionWordTellsLength : Prop :=
  ∀ c : CellValue, decodeHead c ≠ .unknown →
    decodedWords (decodeHead c) =
      if c.d0.val = 9 ∧ (1 ≤ c.d1.val ∧ c.d1.val ≤ 5) ∧ (c.d2.val = 1 ∨ c.d2.val = 3) then some 2 else some 1

/-- A sanity statement: words written out digit by digit from the encodings of one instruction of each family. -/
def Obligations.SampleWordsDecode : Prop :=
  decodeHead ⟨0, 0, 0, 0, 0⟩ = .oneWord .halt ∧ decodeHead ⟨0, 2, 1, 0, 1⟩ = .oneWord (.dec 101) ∧
  decodeHead ⟨0, 3, 0, 0, 0⟩ = .oneWord .push ∧ decodeHead ⟨2, 9, 9, 9, 8⟩ = .oneWord (.store 9998) ∧
  decodeHead ⟨5, 0, 0, 5, 0⟩ = .oneWord (.mul 50) ∧ decodeHead ⟨7, 0, 0, 0, 4⟩ = .oneWord (.brn 4) ∧
  decodeHead ⟨9, 0, 8, 0, 7⟩ = .oneWord (.brzf 7) ∧
  decodeWords [⟨9, 4, 3, 0, 0⟩, ⟨0, 0, 0, 2, 1⟩] = .ok (.subnw ⟨0, 0, 0, 2, 1⟩, [])

/-! ## The checked primitives -/

/-- 20_memory.md section 5 (`InRange`, `MemRead`, `MemWrite`, `DataRead`; decisions D9 and D11, log 4 and log 13): the range check, FILLER,
and the cell a write changes. -/
def Obligations.CheckedMemoryAccess : Prop :=
  (∀ a : Int, inRange a = true ↔ 0 ≤ a ∧ a ≤ 9999) ∧
  (∀ (s : State) (a : Nat), 9999 < a →
    memRead s a = .error (.addressOutOfRange a) ∧ dataRead s a = .error (.addressOutOfRange a) ∧
    ∀ v, memWrite s a v = .error (.addressOutOfRange a)) ∧
  (∀ (s : State) (a : Nat), a ≤ 9999 →
    memRead s a = .ok (s.mem.read a) ∧
    (s.mem.read a = none → dataRead s a = .error (.invalidWord (.mem a))) ∧
    (∀ c, s.mem.read a = some c → dataRead s a = .ok c) ∧
    ∀ v, ∃ m, memWrite s a v = .ok { s with mem := m } ∧ Memory.Updated s.mem m a v)

/-- 20_memory.md section 5 (`Num`, `Addr`; decisions D10 and D12, log 12 and log 14): what a pointer's digits name. -/
def Obligations.PointerWordsNameAddresses : Prop :=
  ∀ (c : CellValue) (src : Src) (n : Nat), n = 1000 * c.d1.val + 100 * c.d2.val + 10 * c.d3.val + c.d4.val →
    (c.d0.val = 0 → addr c src = .ok n) ∧
    (c.d0.val = 1 → n = 0 → addr c src = .ok 0) ∧
    (c.d0.val = 1 → n ≠ 0 → addr c src = .error (.addressOutOfRange (-(n : Int)))) ∧
    (2 ≤ c.d0.val → addr c src = .error (.invalidWord src))

/-- R28. `SetFlags` from the integer result: the three cases, never both true, in agreement with the word written, and nothing else. -/
def Obligations.SetFlagsFollowsResult : Prop :=
  ∀ (s : State) (r : Int),
    (r = 0 → (s.setFlags r).zero = true ∧ (s.setFlags r).negative = false) ∧
    (r < 0 → (s.setFlags r).zero = false ∧ (s.setFlags r).negative = true) ∧
    (0 < r → (s.setFlags r).zero = false ∧ (s.setFlags r).negative = false) ∧
    (-9999 ≤ r → r ≤ 9999 →
      ((s.setFlags r).negative = true ↔ (encodeNum r).d0 = 1) ∧ ((s.setFlags r).zero = true ↔ (encodeNum r).slice 1 4 = 0)) ∧
    s.setFlags r = { s with zero := (s.setFlags r).zero, negative := (s.setFlags r).negative }

/-! ## The stack -/

/-- R131. `Push`: overflow exactly at `sp` = 0; otherwise `sp` goes down by one and the value is written there, and nothing else changes. -/
def Obligations.PushWritesBelowStackPointer : Prop :=
  ∀ (s : State) (v : CellValue),
    (s.sp = 0 → push s v = .error (.stackOverflow 0)) ∧
    (0 < s.sp → s.sp ≤ 9999 →
      ∃ m, push s v = .ok { s with sp := s.sp - 1, mem := m } ∧ Memory.Updated s.mem m (s.sp - 1) v)

/-- 42_stack.md section 2 (`Pop`): underflow exactly when `sp` ≥ `bp`; otherwise the top is read, not cleared, and `sp` goes up by one. That
its read cannot fault in a good state is the spec's own derivation. -/
def Obligations.PopReadsAtStackPointer : Prop :=
  ∀ s : State,
    (s.bp ≤ s.sp → pop s = .error (.stackUnderflow s.sp)) ∧
    (s.Inv → s.sp < s.bp → ∃ v, s.mem.read s.sp = some v ∧ pop s = .ok (v, { s with sp := s.sp + 1 }))

/-- R133. The protection state machine, under PUSH (whatever value `acc` holds) and POP, in every state that meets the invariant. A fault
halts the machine and leaves the protection state where it was. -/
def Obligations.StackProtectionStates : Prop :=
  ∀ (s : State) (p : Nat), s.Inv → s.ip = some p →
    ((stackState s = .empty ↔ s.sp = s.bp) ∧ (stackState s = .partly ↔ 0 < s.sp ∧ s.sp < s.bp) ∧ (stackState s = .full ↔ s.sp = 0)) ∧
    (stackState s = .empty → s.sp = 9999 ∧
      (∀ v, s.acc = some v → ∃ t, exec .push s = .next t ∧ t.status = .ok ∧ t.sp = 9998 ∧ stackState t = .partly) ∧
      exec .pop s = .next (s.afterFault (.stackUnderflow 9999)) ∧ stackState (s.afterFault (.stackUnderflow 9999)) = .empty) ∧
    (stackState s = .partly → 1 ≤ s.sp ∧ s.sp ≤ 9998 ∧
      (∀ v, s.acc = some v → ∃ t, exec .push s = .next t ∧ t.status = .ok ∧ stackState t = if s.sp = 1 then .full else .partly) ∧
      (∃ t, exec .pop s = .next t ∧ t.status = .ok ∧ stackState t = if s.sp = 9998 then .empty else .partly)) ∧
    (stackState s = .full →
      (∀ v, s.acc = some v →
        exec .push s = .next (s.afterFault (.stackOverflow 0)) ∧ stackState (s.afterFault (.stackOverflow 0)) = .full) ∧
      ∃ t, exec .pop s = .next t ∧ t.status = .ok ∧ t.sp = 1 ∧ stackState t = .partly)

/-- 42_stack.md section 5: n pushes and then n pops on an empty stack give the values in reverse order and empty it again. -/
def Obligations.PushesThenPopsReverse : Prop :=
  ∀ (s : State) (vs : List CellValue), s.Inv → s.sp = s.bp → vs.length ≤ 9999 →
    ∃ t, pushAll vs s = .ok t ∧ t.sp = 9999 - vs.length ∧
      ∃ u, popAll vs.length t = .ok (vs.reverse, u) ∧ u.sp = u.bp

/-! ## Instructions that complete -/

/-- R110. HALT writes `halted` and nothing else; only `00000` among the words led by `00` is HALT; a later step is refused; `reset()` or a
successful load makes the machine runnable with `ip` where it was, and after `reset()` every cell, the one at `ip` too, is a HALT. -/
def Obligations.HaltStopsTheMachine : Prop :=
  (∀ (s : State) (p : Nat), s.ip = some p → exec .halt s = .next { s with halted := .yes, status := .haltExecuted }) ∧
  (∀ c : CellValue, c.d0 = 0 → c.d1 = 0 → (decodeHead c = .oneWord .halt ↔ c = ⟨0, 0, 0, 0, 0⟩) ∧
    (c ≠ ⟨0, 0, 0, 0, 0⟩ → decodeHead c = .unknown)) ∧
  (∀ s t : State, s.loaded = true → exec .halt s = .next t →
    step t = .next { t with status := .refused .alreadyHalted } ∧ t.hostReset.Runnable ∧
    (∀ file, (t.load file).status = .loadOk → (t.load file).Runnable ∧ (t.load file).ip = t.ip) ∧
    (∀ a, a ≤ 9999 → t.hostReset.mem.read a = some ⟨0, 0, 0, 0, 0⟩) ∧
    ∀ p, s.ip = some p → p ≤ 9999 →
      step t.hostReset = .next { t.hostReset with halted := .yes, status := .haltExecuted } ∧ t.hostReset.ip = some p)

/-- 41_incdec.md (INC, DEC): the cell is replaced by the encoded result, the flags are set from it, `ip` moves by one, and `acc` plays no
part. -/
def Obligations.IncAndDecChangeTheirCell : Prop :=
  ∀ (s : State) (p a : Nat) (c : CellValue), a ≤ 999 → s.ip = some p → s.mem.read a = some c → c.d0.val ≤ 1 →
    (decodeNum c + 1 ≤ 9999 →
      ∃ m, exec (.inc a) s = .next { s with
          mem := m, zero := decide (decodeNum c + 1 = 0), negative := decide (decodeNum c + 1 < 0), ip := some (p + 1), status := .ok } ∧
        Memory.Updated s.mem m a (encodeNum (decodeNum c + 1))) ∧
    (-9999 ≤ decodeNum c - 1 →
      ∃ m, exec (.dec a) s = .next { s with
          mem := m, zero := decide (decodeNum c - 1 = 0), negative := decide (decodeNum c - 1 < 0), ip := some (p + 1), status := .ok } ∧
        Memory.Updated s.mem m a (encodeNum (decodeNum c - 1)))

/-- 42_stack.md section 4 (PUSH, POP): transport between `acc` and the stack. -/
def Obligations.PushAndPopTransport : Prop :=
  ∀ (s : State) (p : Nat) (v : CellValue), s.ip = some p →
    (s.acc = some v → 0 < s.sp → s.sp ≤ 9999 →
      ∃ m, exec .push s = .next { s with mem := m, sp := s.sp - 1, ip := some (p + 1), status := .ok } ∧
        Memory.Updated s.mem m (s.sp - 1) v) ∧
    (s.sp < s.bp → s.sp ≤ 9999 → s.mem.read s.sp = some v →
      exec .pop s = .next { s with acc := some v, sp := s.sp + 1, ip := some (p + 1), status := .ok })

/-- 43_loadstore.md (LOAD, STORE): transport of all five digits between `acc` and any cell, whatever the leading digit (decision D10,
log 12). -/
def Obligations.LoadAndStoreTransport : Prop :=
  ∀ (s : State) (p a : Nat) (v : CellValue), a ≤ 9999 → s.ip = some p →
    (s.mem.read a = some v → exec (.load a) s = .next { s with acc := some v, ip := some (p + 1), status := .ok }) ∧
    (s.acc = some v →
      ∃ m, exec (.store a) s = .next { s with mem := m, ip := some (p + 1), status := .ok } ∧ Memory.Updated s.mem m a v)

/-- 44_arith.md section 2 (ADD, SUB, MUL): `acc` is the left operand and receives the encoded exact result; the flags are set from it. -/
def Obligations.DirectArithmeticComputes : Prop :=
  ∀ (s : State) (p a : Nat) (u c : CellValue) (r : Int),
    a ≤ 9999 → s.ip = some p → s.acc = some u → s.mem.read a = some c →
    (Computes (· + ·) u c r → exec (.add a) s = .next (s.afterArith r p 1)) ∧
    (Computes (· - ·) u c r → exec (.sub a) s = .next (s.afterArith r p 1)) ∧
    (Computes (· * ·) u c r → exec (.mul a) s = .next (s.afterArith r p 1))

/-- R171. BR: `ip <- a4` and nothing else, whatever `acc` and the flags; every word led by 6 is a BR; a BR to its own address is
an endless loop, which `run()` leaves at its bound with `halted` false. -/
def Obligations.UnconditionalBranch : Prop :=
  (∀ (s : State) (p a : Nat), s.ip = some p → exec (.br a) s = .next { s with ip := some a, status := .ok }) ∧
  (∀ d1 d2 d3 d4 : Digit,
    decodeHead ⟨6, d1, d2, d3, d4⟩ = .oneWord (.br (1000 * d1.val + 100 * d2.val + 10 * d3.val + d4.val))) ∧
  (∀ (s : State) (p : Nat) (c : CellValue), s.Runnable → s.ip = some p → p ≤ 9999 → s.mem.read p = some c →
    decodeHead c = .oneWord (.br p) →
      (∀ n, Host.Core.run Sys2Proof.core (n + 1) s = .next { s with halted := .no, status := .ok }) ∧
      run s = .next { s with halted := .no, status := .boundExhausted })

/-- 45_branch.md (BRN, BRZ): the digits of `acc` decide, any cell value accepted (decision D10, log 12); the flags play no part. -/
def Obligations.AccumulatorBranches : Prop :=
  ∀ (s : State) (p a : Nat) (u : CellValue), s.ip = some p → s.acc = some u →
    exec (.brn a) s = .next { s with ip := some (if u.d0.val = 1 then a else p + 1), status := .ok } ∧
    exec (.brz a) s = .next { s with
      ip := some (if u.d1.val = 0 ∧ u.d2.val = 0 ∧ u.d3.val = 0 ∧ u.d4.val = 0 then a else p + 1), status := .ok }

/-- 45_branch.md (BRNF, BRZF): the flags decide, `acc` plays no part; with the flags of a good state at most one of the two is taken. -/
def Obligations.FlagBranches : Prop :=
  ∀ (s : State) (p a : Nat), s.ip = some p →
    exec (.brnf a) s = .next { s with ip := some (if s.negative = true then a else p + 1), status := .ok } ∧
    exec (.brzf a) s = .next { s with ip := some (if s.zero = true then a else p + 1), status := .ok }

/-- 46_family9.md section 3 (PUSHI, PUSHIW, PUSHN, PUSHNW): the operand is pushed, `acc` plays no part (layout D1, log 7). -/
def Obligations.PushFormsPushTheirOperand : Prop :=
  ∀ (s : State) (p : Nat), s.ip = some p → 0 < s.sp → s.sp ≤ 9999 →
    (∀ xx, xx ≤ 99 →
      ∃ m, exec (.pushi xx) s = .next { s with mem := m, sp := s.sp - 1, ip := some (p + 1), status := .ok } ∧
        Memory.Updated s.mem m (s.sp - 1) (zext5 xx)) ∧
    (∀ w,
      ∃ m, exec (.pushiw w) s = .next { s with mem := m, sp := s.sp - 1, ip := some (p + 2), status := .ok } ∧
        Memory.Updated s.mem m (s.sp - 1) w) ∧
    (∀ xx b c, xx ≤ 99 → Resolves s xx b c →
      ∃ m, exec (.pushn xx) s = .next { s with mem := m, sp := s.sp - 1, ip := some (p + 1), status := .ok } ∧
        Memory.Updated s.mem m (s.sp - 1) c) ∧
    (∀ w a b c, PointsTo w a → Resolves s a b c →
      ∃ m, exec (.pushnw w) s = .next { s with mem := m, sp := s.sp - 1, ip := some (p + 2), status := .ok } ∧
        Memory.Updated s.mem m (s.sp - 1) c)

/-- 46_family9.md section 4 (LDI, LDIW, LDN, LDNW): the operand is transported to `acc`, flags unchanged (layout D1, log 7; zero extension
D4, log 9). -/
def Obligations.LoadFormsLoadTheirOperand : Prop :=
  ∀ (s : State) (p : Nat), s.ip = some p →
    (∀ xx, xx ≤ 99 → exec (.ldi xx) s = .next { s with acc := some (zext5 xx), ip := some (p + 1), status := .ok }) ∧
    (∀ w, exec (.ldiw w) s = .next { s with acc := some w, ip := some (p + 2), status := .ok }) ∧
    (∀ xx b c, xx ≤ 99 → Resolves s xx b c →
      exec (.ldn xx) s = .next { s with acc := some c, ip := some (p + 1), status := .ok }) ∧
    (∀ w a b c, PointsTo w a → Resolves s a b c →
      exec (.ldnw w) s = .next { s with acc := some c, ip := some (p + 2), status := .ok })

/-- 46_family9.md sections 5 to 7 (ADDI, SUBI, MULI with the field as a number; ADDIW, SUBIW, MULIW with the operand word; layout D1, log 7). -/
def Obligations.ImmediateArithmeticComputes : Prop :=
  ∀ (s : State) (p : Nat) (u : CellValue), s.ip = some p → s.acc = some u →
    (∀ xx : Nat, xx ≤ 99 → u.d0.val ≤ 1 →
      (decodeNum u + xx ≤ 9999 → exec (.addi xx) s = .next (s.afterArith (decodeNum u + xx) p 1)) ∧
      (-9999 ≤ decodeNum u - xx → exec (.subi xx) s = .next (s.afterArith (decodeNum u - xx) p 1)) ∧
      (-9999 ≤ decodeNum u * xx → decodeNum u * xx ≤ 9999 →
        exec (.muli xx) s = .next (s.afterArith (decodeNum u * xx) p 1))) ∧
    (∀ (w : CellValue) (r : Int),
      (Computes (· + ·) u w r → exec (.addiw w) s = .next (s.afterArith r p 2)) ∧
      (Computes (· - ·) u w r → exec (.subiw w) s = .next (s.afterArith r p 2)) ∧
      (Computes (· * ·) u w r → exec (.muliw w) s = .next (s.afterArith r p 2)))

/-- 46_family9.md sections 5 to 7 (ADDN, SUBN, MULN, ADDNW, SUBNW, MULNW): the operand lies two dereferences away (layout D1, log 7). -/
def Obligations.IndirectArithmeticComputes : Prop :=
  ∀ (s : State) (p : Nat) (u : CellValue), s.ip = some p → s.acc = some u →
    (∀ (xx b : Nat) (c : CellValue) (r : Int), xx ≤ 99 → Resolves s xx b c →
      (Computes (· + ·) u c r → exec (.addn xx) s = .next (s.afterArith r p 1)) ∧
      (Computes (· - ·) u c r → exec (.subn xx) s = .next (s.afterArith r p 1)) ∧
      (Computes (· * ·) u c r → exec (.muln xx) s = .next (s.afterArith r p 1))) ∧
    (∀ (w : CellValue) (a b : Nat) (c : CellValue) (r : Int), PointsTo w a → Resolves s a b c →
      (Computes (· + ·) u c r → exec (.addnw w) s = .next (s.afterArith r p 2)) ∧
      (Computes (· - ·) u c r → exec (.subnw w) s = .next (s.afterArith r p 2)) ∧
      (Computes (· * ·) u c r → exec (.mulnw w) s = .next (s.afterArith r p 2)))

/-! ## Instructions that raise a fault -/

/-- Direct reads (41_incdec.md, 43_loadstore.md, 44_arith.md): a cell that still holds FILLER is `InvalidWord`, before `acc` is looked at
(decisions D9 and D21, log 4 and log 19). -/
def Obligations.DirectReadOfFillerTraps : Prop :=
  ∀ (s : State) (p a : Nat) (i : Instr), a ≤ 9999 → s.ip = some p → s.mem.read a = none →
    i ∈ [Instr.inc a, .dec a, .load a, .add a, .sub a, .mul a] → exec i s = .next (s.afterFault (.invalidWord (.mem a)))

/-- INC and DEC (41_incdec.md; decisions D5 and D10, log 10 and log 12): a cell value led by 2 to 9 is `InvalidWord`, a result out of range
is `ArithmeticOverflow`. -/
def Obligations.IncAndDecTrap : Prop :=
  ∀ (s : State) (p a : Nat) (c : CellValue), a ≤ 999 → s.ip = some p → s.mem.read a = some c →
    (2 ≤ c.d0.val →
      exec (.inc a) s = .next (s.afterFault (.invalidWord (.mem a))) ∧
      exec (.dec a) s = .next (s.afterFault (.invalidWord (.mem a)))) ∧
    (c = ⟨0, 9, 9, 9, 9⟩ → exec (.inc a) s = .next (s.afterFault (.arithmeticOverflow 10000))) ∧
    (c = ⟨1, 9, 9, 9, 9⟩ → exec (.dec a) s = .next (s.afterFault (.arithmeticOverflow (-10000))))

/-- PUSH, STORE, BRN and BRZ with `acc` unset (10_state.md section 2, decision D7, log 5); PUSH raises it even on a full stack (D21, log 19). -/
def Obligations.UnsetAccumulatorTraps : Prop :=
  ∀ (s : State) (p a : Nat) (i : Instr), s.ip = some p → s.acc = none →
    i ∈ [Instr.push, .store a, .brn a, .brz a] → exec i s = .next (s.afterFault .accUnset)

/-- The 15 accumulator arithmetic forms with their operand read (44_arith.md section 1, 60_exceptions.md section 5; decisions D5, D7, D10,
D21, log 5, 10, 12, 19): `AccUnset`, then `InvalidWord(acc)`, then `InvalidWord` of the operand, then `ArithmeticOverflow`. -/
def Obligations.ArithmeticTrapsInOrder : Prop :=
  ∀ (s : State) (p : Nat) (i : Instr) (op : Int → Int → Int) (c : CellValue) (src : Src),
    s.ip = some p → ArithForm s p i op c src →
    (s.acc = none → exec i s = .next (s.afterFault .accUnset)) ∧
    (∀ u, s.acc = some u → 2 ≤ u.d0.val → exec i s = .next (s.afterFault (.invalidWord .acc))) ∧
    (∀ u, s.acc = some u → u.d0.val ≤ 1 → 2 ≤ c.d0.val → exec i s = .next (s.afterFault (.invalidWord src))) ∧
    (∀ u r, s.acc = some u → u.d0.val ≤ 1 → c.d0.val ≤ 1 → op (decodeNum u) (decodeNum c) = r → r < -9999 ∨ 9999 < r →
      exec i s = .next (s.afterFault (.arithmeticOverflow r)))

/-- The ten indirect forms (46_family9.md section 2; decisions D9, D10, D12, D21, log 4, 12, 14, 19): the faults of operand resolution in the
order of the reads, before `acc` or the stack is looked at. -/
def Obligations.IndirectOperandTrapsInOrder : Prop :=
  ∀ (s : State) (p : Nat) (i : Instr), s.ip = some p →
    (∀ a, a ≤ 9999 →
      (shortIndirect i = some a ∨ ∃ w, wordIndirect i = some w ∧ PointsTo w a) →
      (s.mem.read a = none → exec i s = .next (s.afterFault (.invalidWord (.mem a)))) ∧
      (∀ q, s.mem.read a = some q →
        (2 ≤ q.d0.val → exec i s = .next (s.afterFault (.invalidWord (.mem a)))) ∧
        (q.d0.val ≤ 1 → decodeNum q < 0 → exec i s = .next (s.afterFault (.addressOutOfRange (decodeNum q)))) ∧
        (∀ b, PointsTo q b → s.mem.read b = none → exec i s = .next (s.afterFault (.invalidWord (.mem b)))))) ∧
    (∀ w, wordIndirect i = some w →
      (2 ≤ w.d0.val → exec i s = .next (s.afterFault (.invalidWord (.mem (p + 1))))) ∧
      (w.d0.val ≤ 1 → decodeNum w < 0 → exec i s = .next (s.afterFault (.addressOutOfRange (decodeNum w)))))

/-- The family-9 push forms on a full stack (42_stack.md section 2, 46_family9.md section 3; layout D1, log 7): `StackOverflow` once the
operand is resolved. -/
def Obligations.PushFormsOverflow : Prop :=
  ∀ (s : State) (p : Nat), s.ip = some p → s.sp = 0 →
    (∀ xx, xx ≤ 99 → exec (.pushi xx) s = .next (s.afterFault (.stackOverflow 0))) ∧
    (∀ w, exec (.pushiw w) s = .next (s.afterFault (.stackOverflow 0))) ∧
    (∀ xx b c, xx ≤ 99 → Resolves s xx b c → exec (.pushn xx) s = .next (s.afterFault (.stackOverflow 0))) ∧
    (∀ w a b c, PointsTo w a → Resolves s a b c → exec (.pushnw w) s = .next (s.afterFault (.stackOverflow 0)))

/-- The table of 60_exceptions.md section 4: in a good state a well-formed instruction raises no fault but those of its row. -/
def Obligations.FaultsFollowTheTable : Prop :=
  ∀ (i : Instr) (s t : State) (f : Fault), i.wellFormed = true → s.Inv → s.ip ≠ none →
    exec i s = .next t → t.status = .fault f → faultName f ∈ mayRaise i

/-! ## Frames -/

/-- `acc` (10_state.md section 2): unchanged by every instruction that does not write it, and by every fault. -/
def Obligations.AccumulatorFrame : Prop :=
  ∀ (i : Instr) (s t : State), exec i s = .next t →
    (writesAcc i = false ∨ ∃ f, t.status = .fault f) → t.acc = s.acc

/-- The instructions 10_state.md section 2 lists as not reading `acc` do the same whatever it holds: those that do not write it leave the
value put there, the loads and POP put the same value there when they complete. -/
def Obligations.AccumulatorNotRead : Prop :=
  ∀ (i : Instr) (s t : State) (v : Option CellValue), readsAcc i = false → exec i s = .next t →
    (writesAcc i = false → exec i { s with acc := v } = .next { t with acc := v }) ∧
    (writesAcc i = true → t.status = .ok → exec i { s with acc := v } = .next t) ∧
    (∀ f, t.status = .fault f → exec i { s with acc := v } = .next { t with acc := v })

/-- The flags (10_state.md section 4): written by INC, DEC, ADD, SUB, MUL and the family-9 arithmetic forms when they complete, by nothing
else and by no fault. -/
def Obligations.FlagsFrame : Prop :=
  ∀ (i : Instr) (s t : State), exec i s = .next t →
    (writesFlags i = false ∨ ∃ f, t.status = .fault f) → t.zero = s.zero ∧ t.negative = s.negative

/-- `sp`, `bp`, `loaded` and `halted` (10_state.md section 5, decision D25, log 22): `sp` moves only by a completed push or POP, `bp` and
`loaded` never, `halted` only by HALT or a fault. -/
def Obligations.ControlStateFrame : Prop :=
  ∀ (i : Instr) (s t : State), exec i s = .next t →
    t.bp = s.bp ∧ t.loaded = s.loaded ∧
    (pushes i = false → i ≠ .pop → t.sp = s.sp) ∧
    (∀ f, t.status = .fault f → t.sp = s.sp ∧ t.halted = .yes) ∧
    (t.status = .ok → t.halted = s.halted) ∧
    (pushes i = true → t.status = .ok → t.sp + 1 = s.sp) ∧
    (i = .pop → t.status = .ok → t.sp = s.sp + 1)

/-- Memory (20_memory.md sections 4 and 6): every cell but the one the instruction stores to reads as before, and all of them after a
fault. The cell stored to is the field of INC, DEC and STORE and `sp - 1` of a push. -/
def Obligations.MemoryFrame : Prop :=
  ∀ (i : Instr) (s t : State) (b : Nat), exec i s = .next t →
    (storedCell i s ≠ some b ∨ ∃ f, t.status = .fault f) → t.mem.read b = s.mem.read b

/-- R25, R105. Every outcome of an instruction and its `ip`: the branch target or the next instruction when it completes, its own address
after HALT and after a fault. -/
def Obligations.InstructionPointerRule : Prop :=
  ∀ (i : Instr) (s t : State) (p : Nat), s.ip = some p → exec i s = .next t →
    (i ≠ .halt ∧ t.status = .ok ∧
      t.ip = (match branchTarget i s with
        | some a => some a
        | none => some (p + i.wordCount))) ∨
    (i = .halt ∧ t.status = .haltExecuted ∧ t.ip = some p) ∨
    (i ≠ .halt ∧ (∃ f, t.status = .fault f) ∧ t.ip = some p)

/-! ## The engine -/

/-- A step of a runnable machine at a cell that decodes is that instruction's meaning, in the state whose `halted` is false; a two-word
instruction has its operand word from the next cell (40_engine.md section 1). -/
def Obligations.StepRunsDecodedInstruction : Prop :=
  ∀ (s : State) (p : Nat) (c : CellValue) (i : Instr), s.Runnable → s.ip = some p → s.mem.read p = some c →
    (p ≤ 9999 → decodeHead c = .oneWord i → step s = exec i { s with halted := .no }) ∧
    (∀ w, p ≤ 9998 → s.mem.read (p + 1) = some w → decodeWords [c, w] = .ok (i, []) →
      step s = exec i { s with halted := .no })

/-- R232, R233. A refused `step()` or `run()` reports and changes no state of the machine; NotLoaded comes first. -/
def Obligations.RefusedStepChangesNothing : Prop :=
  ∀ s : State,
    (s.loaded = false →
      step s = .next { s with status := .refused .notLoaded } ∧ run s = .next { s with status := .refused .notLoaded }) ∧
    (s.loaded = true → s.halted = .yes →
      step s = .next { s with status := .refused .alreadyHalted } ∧
      run s = .next { s with status := .refused .alreadyHalted })

/-- 40_engine.md section 1 (fetch and decode; decisions D8, D9, D11, D13, log 4, 5, 13, 15): the faults raised before any instruction runs,
in their order. -/
def Obligations.FetchAndDecodeTraps : Prop :=
  ∀ s : State, s.Runnable →
    (s.ip = none → step s = .next (s.afterFault .ipUnset)) ∧
    ∀ p, s.ip = some p →
      (9999 < p → step s = .next (s.afterFault (.addressOutOfRange p))) ∧
      (p ≤ 9999 → s.mem.read p = none → step s = .next (s.afterFault (.unknownInstruction p))) ∧
      (∀ c, p ≤ 9999 → s.mem.read p = some c →
        (decodeHead c = .unknown → step s = .next (s.afterFault (.unknownInstruction p))) ∧
        (decodedWords (decodeHead c) = some 2 →
          (p = 9999 → step s = .next (s.afterFault (.addressOutOfRange 10000))) ∧
          (p ≤ 9998 → s.mem.read (p + 1) = none → step s = .next (s.afterFault (.invalidWord (.mem (p + 1)))))))

/-- 40_engine.md section 1 and 60_exceptions.md section 1: a step that faults changes `halted` and the reported status and nothing else,
whatever the instruction had computed before the fault. -/
def Obligations.FaultIsAtomic : Prop :=
  ∀ (s t : State) (f : Fault), s.Runnable → step s = .next t → t.status = .fault f → t = s.afterFault f

/-- 60_exceptions.md section 1 and 40_engine.md section 1: no fault propagates past the engine boundary; every step, from any state, answers
a next state whose status is one a step reports. That a fault is a next state and never the interface's outcome `fault` is the model's
choice (log 1, DEDUCED), and so is the field `status` that holds the report (log 2, DESIGN CHOICE). -/
def Obligations.EveryStepAnswers : Prop :=
  ∀ s : State, ∃ t, step s = .next t ∧
    (t.status = .ok ∨ t.status = .haltExecuted ∨ (∃ f, t.status = .fault f) ∨
      t.status = .refused .notLoaded ∨ t.status = .refused .alreadyHalted)

/-- The invariant holds at machine creation (10_state.md section 8; the flags rest on decision D14, log 6). -/
def Obligations.CreationMeetsInvariant : Prop := State.reset.Inv

/-- Every step keeps the invariant: `ip` stays in 0 to 10000, `sp` within 0 to `bp`, `bp` at 9999, the flags never both true, the memory in
canonical form, every live stack cell written. -/
def Obligations.StepKeepsInvariant : Prop :=
  ∀ s t : State, s.Inv → step s = .next t → t.Inv

/-- Every host operation keeps the invariant (70_reset_and_hazards.md section 2). -/
def Obligations.HostCallsKeepInvariant : Prop :=
  ∀ (c : HostCall) (s t : State), s.Inv → call c s = .next t → t.Inv

/-- R109. The transitions of the engine's state machine, row by row. -/
def Obligations.EngineTransitions : Prop :=
  ∀ s : State,
    (engineState s = .notLoaded →
      (∀ c, c = HostCall.step ∨ c = HostCall.run → call c s = .next { s with status := .refused .notLoaded }) ∧
      (∀ t, call .reset s = .next t → engineState t = .notLoaded ∧ t.halted = .no ∧ ∀ a, a ≤ 9999 → t.mem.read a = some ⟨0, 0, 0, 0, 0⟩)) ∧
    (engineState s = .ready →
      (∀ t, call .step s = .next t →
        (t.status = .ok ∧ engineState t = .ready) ∨
        ((t.status = .haltExecuted ∨ ∃ f, t.status = .fault f) ∧ engineState t = .halted))) ∧
    (engineState s = .halted →
      ∀ c, c = HostCall.step ∨ c = HostCall.run → call c s = .next { s with status := .refused .alreadyHalted }) ∧
    (engineState s ≠ .notLoaded →
      ∀ t, call .reset s = .next t → engineState t = .ready ∧ t.halted = .no ∧ ∀ a, a ≤ 9999 → t.mem.read a = some ⟨0, 0, 0, 0, 0⟩) ∧
    (∀ file t, call (.load file) s = .next t →
      (t.status = .loadOk ∧ engineState t = .ready ∧ t.halted = .no) ∨
      (t.status = .loadError ∧ engineState t = .notLoaded ∧ t.loaded = false ∧ t.halted = s.halted)) ∧
    (∀ a t, call (.setStartAddress a) s = .next t →
      engineState t = engineState s ∧ t = { s with ip := t.ip, status := t.status })

/-- 40_engine.md section 2 (`run()`; decision D20, log 18): it ends with a refusal, HALT, a fault or the bound; exhausting the bound leaves
`halted` false and the state that 100 completed steps give. -/
def Obligations.RunEndsAsReported : Prop :=
  ∀ s : State, ∃ t, run s = .next t ∧
    ((¬ s.Runnable ∧ ∃ g, t = { s with status := .refused g }) ∨
     (s.Runnable ∧ t.EndedWell) ∨ (s.Runnable ∧ t.Faulted) ∨
     (s.Runnable ∧ t.halted = .no ∧
       ∃ u, Host.Core.run Sys2Proof.core 100 s = .next u ∧ u.status = .ok ∧ t = { u with status := .boundExhausted }))

/-- 20_memory.md section 8: a STORE into the next cell is what the next step fetches and runs. -/
def Obligations.StoredWordIsFetchedNext : Prop :=
  ∀ (s : State) (p : Nat) (v : CellValue), s.Runnable → s.ip = some p → p ≤ 9998 →
    s.mem.read p = some (wordA4 2 (p + 1)) → s.acc = some v →
    ∃ t, step s = .next t ∧ t.ip = some (p + 1) ∧ t.mem.read (p + 1) = some v ∧ t.acc = some v ∧
      ∀ i, decodeHead v = .oneWord i → step t = exec i t

/-! ## Creation and the host operations -/

/-- The state at machine creation (10_state.md section 8; the flags rest on decision D14, `loaded` on D15, FILLER on D9: log 6, 24, 4). -/
def Obligations.CreationState : Prop :=
  State.reset.acc = none ∧ State.reset.ip = none ∧ State.reset.sp = 9999 ∧ State.reset.bp = 9999 ∧
  State.reset.zero = false ∧ State.reset.negative = false ∧ State.reset.loaded = false ∧ State.reset.halted = .unset ∧
  ∀ a, State.reset.mem.read a = none

/-- `reset()` (70_reset_and_hazards.md section 2, decision D6, log 11): every cell `"00000"`, `halted` false, nothing else. -/
def Obligations.HostResetZeroesMemory : Prop :=
  ∀ s : State,
    (∀ a, a ≤ 9999 → s.hostReset.mem.read a = some ⟨0, 0, 0, 0, 0⟩) ∧
    s.hostReset = { s with mem := s.hostReset.mem, halted := .no, status := .done }

/-- `load` (70_reset_and_hazards.md section 2, decisions D16 and D17, log 16): a missing file, a file all of whose lines are good, and a file
with a first violation, after which nothing is applied and before which nothing is rolled back. -/
def Obligations.LoadAppliesLinesInOrder : Prop :=
  ∀ (s : State) (ls : List Line) (ws : List (Nat × CellValue)), ls.map parseLine = ws.map some →
    s.load none = { s with loaded := false, status := .loadError } ∧
    s.load (some ls) = { s with
      mem := ws.foldl (fun m e => m.write e.1 e.2) s.mem, loaded := true, halted := .no, status := .loadOk } ∧
    (∀ (bad : Line) (rest : List Line), parseLine bad = none →
      s.load (some (ls ++ bad :: rest)) = { s with
        mem := ws.foldl (fun m e => m.write e.1 e.2) s.mem, loaded := false, status := .loadError })

/-- The lines of the machine-code text (70_reset_and_hazards.md section 2, decision D17, log 16): a good line writes the value's digits padded
on the left with zeros; an address over 9999, a value of more than five digits, or a lone token is a violation. -/
def Obligations.LinesPadTheirDigits : Prop :=
  ∀ (as ds : List Digit) (comment : List Char), as ≠ [] → ds ≠ [] →
    (digitsValue as ≤ 9999 → ds.length ≤ 5 →
      ∃ c : CellValue,
        parseLine (as.map digitChar ++ ' ' :: ds.map digitChar ++ ';' :: comment) = some (digitsValue as, c) ∧
        c.digits = List.replicate (5 - ds.length) 0 ++ ds) ∧
    (9999 < digitsValue as ∨ 5 < ds.length →
      parseLine (as.map digitChar ++ ' ' :: ds.map digitChar ++ ';' :: comment) = none) ∧
    parseLine (as.map digitChar ++ ';' :: comment) = none ∧ parseLine (';' :: comment) = none

/-- `setStartAddress` (70_reset_and_hazards.md section 2, decision D18, log 17). -/
def Obligations.StartAddressChoosesIp : Prop :=
  ∀ (s : State) (a : Int),
    (∀ n : Nat, a = n → n ≤ 9999 → s.setStartAddress a = { s with ip := some n, status := .done }) ∧
    (a < 0 ∨ 9999 < a → s.setStartAddress a = { s with status := .refused .badStartAddress })

/-- The accessors (70_reset_and_hazards.md section 2, decision D24, log 21): raw and decoded forms. -/
def Obligations.AccessorsReadRawAndDecoded : Prop :=
  ∀ s : State,
    accRaw s = s.acc ∧ stackPointers s = (s.sp, s.bp) ∧ flagsOf s = (s.zero, s.negative) ∧
    engineView s = (s.ip, s.loaded, s.halted) ∧
    decodedForm none = none ∧ (∀ w : CellValue, w.d0.val ≤ 1 → decodedForm (some w) = some (decodeNum w)) ∧
    (∀ w : CellValue, 2 ≤ w.d0.val → decodedForm (some w) = none) ∧ accDecoded s = decodedForm s.acc ∧
    (∀ a n k : Nat, a + n ≤ 10000 → k < n →
      ((memoryRange s a n).bind (·[k]?)) = some (s.mem.read (a + k)) ∧
      ((memoryRangeDecoded s a n).bind (·[k]?)) = some (decodedForm (s.mem.read (a + k))))
end

