-- ==== Sys2Proof/Laws/Codec.lean ====
section
/-!
SUPPORT. Digits, slices and the fields of an instruction word.
-/

namespace Sys2Proof

/-- `RADIX` evaluated (R5). With this in the context `omega` knows the bound of every digit it meets. -/
theorem radix_eq : Config.radix = 10 := rfl

/-- A digit is below ten: the bound `Fin` carries, with the named radix evaluated for arithmetic. -/
theorem Digit.lt_ten (d : Digit) : d.val < 10 := d.isLt

/-! The value of each literal digit. -/

@[simp] theorem digit_val_zero : (0 : Digit).val = 0 := rfl
@[simp] theorem digit_val_one : (1 : Digit).val = 1 := rfl
@[simp] theorem digit_val_two : (2 : Digit).val = 2 := rfl
@[simp] theorem digit_val_three : (3 : Digit).val = 3 := rfl
@[simp] theorem digit_val_four : (4 : Digit).val = 4 := rfl
@[simp] theorem digit_val_five : (5 : Digit).val = 5 := rfl
@[simp] theorem digit_val_six : (6 : Digit).val = 6 := rfl
@[simp] theorem digit_val_seven : (7 : Digit).val = 7 := rfl
@[simp] theorem digit_val_eight : (8 : Digit).val = 8 := rfl
@[simp] theorem digit_val_nine : (9 : Digit).val = 9 := rfl

theorem digits_length (c : CellValue) : c.digits.length = Config.wordDigits := rfl

theorem slice_1_4 (c : CellValue) : c.slice 1 4 = 1000 * c.d1.val + 100 * c.d2.val + 10 * c.d3.val + c.d4.val := by
  simp [CellValue.slice, CellValue.digits, digitsValue, Config.radix]; omega

theorem slice_2_4 (c : CellValue) : c.slice 2 4 = 100 * c.d2.val + 10 * c.d3.val + c.d4.val := by
  simp [CellValue.slice, CellValue.digits, digitsValue, Config.radix]; omega

theorem slice_3_4 (c : CellValue) : c.slice 3 4 = 10 * c.d3.val + c.d4.val := by
  simp [CellValue.slice, CellValue.digits, digitsValue, Config.radix]

theorem slice_1_1 (c : CellValue) : c.slice 1 1 = c.d1.val := by
  simp [CellValue.slice, CellValue.digits, digitsValue]

theorem slice_2_2 (c : CellValue) : c.slice 2 2 = c.d2.val := by
  simp [CellValue.slice, CellValue.digits, digitsValue]

/-! The fields, as digits (R72). -/

theorem fieldA4_eq (c : CellValue) : fieldA4 c = 1000 * c.d1.val + 100 * c.d2.val + 10 * c.d3.val + c.d4.val := slice_1_4 c

theorem fieldA3_eq (c : CellValue) : fieldA3 c = 100 * c.d2.val + 10 * c.d3.val + c.d4.val := slice_2_4 c

theorem fieldA2_eq (c : CellValue) : fieldA2 c = 10 * c.d3.val + c.d4.val := slice_3_4 c

/-! The bounds of the fields, evaluated (R72). -/

@[simp] theorem fits_a4Digits (a : Nat) : fits Config.a4Digits a = decide (a ≤ 9999) := by
  simp [fits, Config.a4Digits, Config.radix, Nat.lt_succ_iff]

@[simp] theorem fits_a3Digits (a : Nat) : fits Config.a3Digits a = decide (a ≤ 999) := by
  simp [fits, Config.a3Digits, Config.radix, Nat.lt_succ_iff]

@[simp] theorem fits_a2Digits (a : Nat) : fits Config.a2Digits a = decide (a ≤ 99) := by
  simp [fits, Config.a2Digits, Config.radix, Nat.lt_succ_iff]

@[simp] theorem digitAt_val (n k : Nat) : (digitAt n k).val = n / 10 ^ k % 10 := rfl

theorem magnitude_eq (c : CellValue) :
    Machine.magnitude c = 1000 * c.d1.val + 100 * c.d2.val + 10 * c.d3.val + c.d4.val := slice_1_4 c

theorem magnitude_le (c : CellValue) : Machine.magnitude c ≤ 9999 := by
  have := c.d1.lt_ten; have := c.d2.lt_ten; have := c.d3.lt_ten; have := c.d4.lt_ten
  rw [magnitude_eq]; omega

/-- A numeric word stands for an integer of -9999 to 9999 (R8, R9). -/
theorem decodeNum_range (c : CellValue) : -9999 ≤ Machine.decodeNum c ∧ Machine.decodeNum c ≤ 9999 := by
  have := magnitude_le c
  unfold Machine.decodeNum
  split <;> omega

theorem fieldA4_wordA4 (k : Digit) {a : Nat} (h : a ≤ 9999) : fieldA4 (wordA4 k a) = a := by
  simp [fieldA4_eq, wordA4]; omega

theorem fieldA3_wordA3 (k : Digit) {a : Nat} (h : a ≤ 999) : fieldA3 (wordA3 k a) = a := by
  simp [fieldA3_eq, wordA3]; omega

theorem fieldA2_wordA2 (k : Digit) {a : Nat} (h : a ≤ 99) : fieldA2 (wordA2 k a) = a := by
  simp [fieldA2_eq, wordA2]; omega

theorem fieldA2_fam9Instr (op : Fam9Op) (m : Fam9Mode) {xx : Nat} (h : xx ≤ 99) : fieldA2 (fam9Instr op m xx) = xx := by
  simp [fieldA2_eq, fam9Instr]; omega

theorem fam9OpOf_code (op : Fam9Op) : fam9OpOf (fam9OpCode op).val = some op := by cases op <;> rfl

theorem fam9ModeOf_code (m : Fam9Mode) : fam9ModeOf (fam9ModeCode m).val = some m := by cases m <;> rfl

/-- Two cell values with the same digits are equal. -/
theorem CellValue.ext_val {c d : CellValue} (h0 : c.d0.val = d.d0.val) (h1 : c.d1.val = d.d1.val) (h2 : c.d2.val = d.d2.val)
    (h3 : c.d3.val = d.d3.val) (h4 : c.d4.val = d.d4.val) : c = d := by
  obtain ⟨a0, a1, a2, a3, a4⟩ := c
  obtain ⟨b0, b1, b2, b3, b4⟩ := d
  simp only [CellValue.mk.injEq]
  exact ⟨Fin.ext h0, Fin.ext h1, Fin.ext h2, Fin.ext h3, Fin.ext h4⟩

end Sys2Proof
end

