-- ==== Sys2Proof/Laws/Decode.lean ====
section
/-!
SUPPORT. What `Decode` answers on a word of each format, and what a decoded word looks like.
-/

namespace Sys2Proof

theorem decodeHead_A4 {c : CellValue} (h : 1 ≤ c.d0.val ∧ c.d0.val ≤ 8) :
    decodeHead c = .oneWord (match c.d0.val with
      | 1 => .load (fieldA4 c)
      | 2 => .store (fieldA4 c)
      | 3 => .add (fieldA4 c)
      | 4 => .sub (fieldA4 c)
      | 5 => .mul (fieldA4 c)
      | 6 => .br (fieldA4 c)
      | 7 => .brn (fieldA4 c)
      | _ => .brz (fieldA4 c)) := by
  obtain ⟨h1, h2⟩ := h
  unfold decodeHead
  generalize c.d0.val = n at h1 h2 ⊢
  interval_cases n <;> rfl

theorem decodeHead_led0 {c : CellValue} (h : c.d0.val = 0) : decodeHead c = decodeLed0 c := by
  simp only [decodeHead, h]

theorem decodeHead_led9 {c : CellValue} (h : c.d0.val = 9) :
    decodeHead c = if c.d1.val = 0 then decodeFlagBranch c else decodeFam9 c := by
  simp only [decodeHead, h]

/-- A family-9 word with operation 1 to 5 (R74, R79). -/
theorem decodeHead_fam9 (op : Fam9Op) (m : Fam9Mode) (xx : Nat) :
    decodeHead (fam9Instr op m xx) = decodeFam9 (fam9Instr op m xx) := by
  cases op <;> rfl

theorem decodeFam9_shortImmediate (op : Fam9Op) {xx : Nat} (h : xx ≤ 99) :
    decodeFam9 (fam9Instr op .shortImmediate xx) = .oneWord (fam9Short op false xx) := by
  have h2 := fieldA2_fam9Instr op .shortImmediate h
  simp only [decodeFam9, h2, fam9OpDigit, fam9ModeDigit, slice_1_1, slice_2_2]
  cases op <;> rfl

theorem decodeFam9_shortIndirect (op : Fam9Op) {xx : Nat} (h : xx ≤ 99) :
    decodeFam9 (fam9Instr op .shortIndirect xx) = .oneWord (fam9Short op true xx) := by
  have h2 := fieldA2_fam9Instr op .shortIndirect h
  simp only [decodeFam9, h2, fam9OpDigit, fam9ModeDigit, slice_1_1, slice_2_2]
  cases op <;> rfl

theorem decodeFam9_wordImmediate (op : Fam9Op) :
    decodeFam9 (fam9Instr op .wordImmediate 0) = .twoWord op false := by
  cases op <;> rfl

theorem decodeFam9_wordIndirect (op : Fam9Op) :
    decodeFam9 (fam9Instr op .wordIndirect 0) = .twoWord op true := by
  cases op <;> rfl

/-- The operation and mode digits of a cell value that family 9 decodes (R78, R79). -/
theorem fam9OpOf_some {o : Nat} {op : Fam9Op} (h : fam9OpOf o = some op) : o = (fam9OpCode op).val := by
  unfold fam9OpOf at h; split at h <;> cases h <;> rfl

theorem fam9ModeOf_some {o : Nat} {m : Fam9Mode} (h : fam9ModeOf o = some m) : o = (fam9ModeCode m).val := by
  unfold fam9ModeOf at h; split at h <;> cases h <;> rfl

/-- Every cell value is the word of a format its leading digits and field give (R71). -/
theorem wordA4_field (c : CellValue) : wordA4 c.d0 (fieldA4 c) = c := by
  have := c.d1.lt_ten; have := c.d2.lt_ten; have := c.d3.lt_ten; have := c.d4.lt_ten
  apply CellValue.ext_val <;> simp [wordA4, fieldA4_eq] <;> omega

theorem wordA3_field (c : CellValue) (h : c.d0.val = 0) : wordA3 c.d1 (fieldA3 c) = c := by
  have := c.d2.lt_ten; have := c.d3.lt_ten; have := c.d4.lt_ten
  apply CellValue.ext_val <;> simp [wordA3, fieldA3_eq, h] <;> omega

theorem wordA2_field (c : CellValue) (h0 : c.d0.val = 9) (h1 : c.d1.val = 0) : wordA2 c.d2 (fieldA2 c) = c := by
  have := c.d3.lt_ten; have := c.d4.lt_ten
  apply CellValue.ext_val <;> simp [wordA2, fieldA2_eq, h0, h1]; omega

theorem fam9Instr_field (c : CellValue) (op : Fam9Op) (m : Fam9Mode) (h0 : c.d0.val = 9) (h1 : c.d1.val = (fam9OpCode op).val)
    (h2 : c.d2.val = (fam9ModeCode m).val) : fam9Instr op m (fieldA2 c) = c := by
  have := c.d3.lt_ten; have := c.d4.lt_ten
  apply CellValue.ext_val <;> simp [fam9Instr, fieldA2_eq, h0, h1, h2]; omega

theorem fieldA4_le (c : CellValue) : fieldA4 c ≤ 9999 := by
  have := c.d1.lt_ten; have := c.d2.lt_ten; have := c.d3.lt_ten; have := c.d4.lt_ten
  simp [fieldA4_eq]; omega

theorem fieldA3_le (c : CellValue) : fieldA3 c ≤ 999 := by
  have := c.d2.lt_ten; have := c.d3.lt_ten; have := c.d4.lt_ten
  simp [fieldA3_eq]; omega

theorem fieldA2_le (c : CellValue) : fieldA2 c ≤ 99 := by
  have := c.d3.lt_ten; have := c.d4.lt_ten
  simp [fieldA2_eq]; omega

end Sys2Proof
end

