-- ==== Sys2Proof/Laws/Exec.lean ====
section
/-!
SUPPORT. Each arm of `exec` as the computation of its rule, so that a proof about one instruction rewrites with one equation.
-/

namespace Sys2Proof.Machine

theorem exec_halt (s : State) :
    exec .halt s =
    perform s (fun _ => .ok s.halt) := rfl

theorem exec_inc (a : Nat) (s : State) :
    exec (.inc a) s =
    perform s (fun p => do
      let t ← addToCell a 1 s
      .ok (t.finish p 1)) := rfl

theorem exec_dec (a : Nat) (s : State) :
    exec (.dec a) s =
    perform s (fun p => do
      let t ← addToCell a (-1) s
      .ok (t.finish p 1)) := rfl

theorem exec_push (s : State) :
    exec .push s =
    perform s (fun p => do
      let v ← accRead s
      let t ← push s v
      .ok (t.finish p 1)) := rfl

theorem exec_pop (s : State) :
    exec .pop s =
    perform s (fun p => do
      let (v, t) ← pop s
      .ok ((t.setAcc v).finish p 1)) := rfl

theorem exec_load (a : Nat) (s : State) :
    exec (.load a) s =
    perform s (fun p => do
      let (c, _) ← operandDirect a s
      .ok ((s.setAcc c).finish p 1)) := rfl

theorem exec_store (a : Nat) (s : State) :
    exec (.store a) s =
    perform s (fun p => do
      let v ← accRead s
      let t ← memWrite s a v
      .ok (t.finish p 1)) := rfl

theorem exec_add (a : Nat) (s : State) :
    exec (.add a) s =
    perform s (fun p => do
      let (c, src) ← operandDirect a s
      let t ← arith .add c src s
      .ok (t.finish p 1)) := rfl

theorem exec_sub (a : Nat) (s : State) :
    exec (.sub a) s =
    perform s (fun p => do
      let (c, src) ← operandDirect a s
      let t ← arith .sub c src s
      .ok (t.finish p 1)) := rfl

theorem exec_mul (a : Nat) (s : State) :
    exec (.mul a) s =
    perform s (fun p => do
      let (c, src) ← operandDirect a s
      let t ← arith .mul c src s
      .ok (t.finish p 1)) := rfl

theorem exec_br (a : Nat) (s : State) :
    exec (.br a) s =
    perform s (fun _ => .ok (s.jump a)) := rfl

theorem exec_brn (a : Nat) (s : State) :
    exec (.brn a) s =
    perform s (fun p => do
      let u ← accRead s
      .ok (if u.d0.val = 1 then s.jump a else s.finish p 1)) := rfl

theorem exec_brz (a : Nat) (s : State) :
    exec (.brz a) s =
    perform s (fun p => do
      let u ← accRead s
      .ok (if magnitude u = 0 then s.jump a else s.finish p 1)) := rfl

theorem exec_brnf (a : Nat) (s : State) :
    exec (.brnf a) s =
    perform s (fun p => .ok (if s.negative = true then s.jump a else s.finish p 1)) := rfl

theorem exec_brzf (a : Nat) (s : State) :
    exec (.brzf a) s =
    perform s (fun p => .ok (if s.zero = true then s.jump a else s.finish p 1)) := rfl

theorem exec_pushi (xx : Nat) (s : State) :
    exec (.pushi xx) s =
    perform s (fun p => do
      let (c, _) ← operandI xx
      let t ← push s c
      .ok (t.finish p 1)) := rfl

theorem exec_pushiw (w : CellValue) (s : State) :
    exec (.pushiw w) s =
    perform s (fun p => do
      let (c, _) ← operandIW w p
      let t ← push s c
      .ok (t.finish p 2)) := rfl

theorem exec_pushn (xx : Nat) (s : State) :
    exec (.pushn xx) s =
    perform s (fun p => do
      let (c, _) ← operandN xx s
      let t ← push s c
      .ok (t.finish p 1)) := rfl

theorem exec_pushnw (w : CellValue) (s : State) :
    exec (.pushnw w) s =
    perform s (fun p => do
      let (c, _) ← operandNW w p s
      let t ← push s c
      .ok (t.finish p 2)) := rfl

theorem exec_ldi (xx : Nat) (s : State) :
    exec (.ldi xx) s =
    perform s (fun p => do
      let (c, _) ← operandI xx
      .ok ((s.setAcc c).finish p 1)) := rfl

theorem exec_ldiw (w : CellValue) (s : State) :
    exec (.ldiw w) s =
    perform s (fun p => do
      let (c, _) ← operandIW w p
      .ok ((s.setAcc c).finish p 2)) := rfl

theorem exec_ldn (xx : Nat) (s : State) :
    exec (.ldn xx) s =
    perform s (fun p => do
      let (c, _) ← operandN xx s
      .ok ((s.setAcc c).finish p 1)) := rfl

theorem exec_ldnw (w : CellValue) (s : State) :
    exec (.ldnw w) s =
    perform s (fun p => do
      let (c, _) ← operandNW w p s
      .ok ((s.setAcc c).finish p 2)) := rfl

theorem exec_addi (xx : Nat) (s : State) :
    exec (.addi xx) s =
    perform s (fun p => do
      let (c, src) ← operandI xx
      let t ← arith .add c src s
      .ok (t.finish p 1)) := rfl

theorem exec_addiw (w : CellValue) (s : State) :
    exec (.addiw w) s =
    perform s (fun p => do
      let (c, src) ← operandIW w p
      let t ← arith .add c src s
      .ok (t.finish p 2)) := rfl

theorem exec_addn (xx : Nat) (s : State) :
    exec (.addn xx) s =
    perform s (fun p => do
      let (c, src) ← operandN xx s
      let t ← arith .add c src s
      .ok (t.finish p 1)) := rfl

theorem exec_addnw (w : CellValue) (s : State) :
    exec (.addnw w) s =
    perform s (fun p => do
      let (c, src) ← operandNW w p s
      let t ← arith .add c src s
      .ok (t.finish p 2)) := rfl

theorem exec_subi (xx : Nat) (s : State) :
    exec (.subi xx) s =
    perform s (fun p => do
      let (c, src) ← operandI xx
      let t ← arith .sub c src s
      .ok (t.finish p 1)) := rfl

theorem exec_subiw (w : CellValue) (s : State) :
    exec (.subiw w) s =
    perform s (fun p => do
      let (c, src) ← operandIW w p
      let t ← arith .sub c src s
      .ok (t.finish p 2)) := rfl

theorem exec_subn (xx : Nat) (s : State) :
    exec (.subn xx) s =
    perform s (fun p => do
      let (c, src) ← operandN xx s
      let t ← arith .sub c src s
      .ok (t.finish p 1)) := rfl

theorem exec_subnw (w : CellValue) (s : State) :
    exec (.subnw w) s =
    perform s (fun p => do
      let (c, src) ← operandNW w p s
      let t ← arith .sub c src s
      .ok (t.finish p 2)) := rfl

theorem exec_muli (xx : Nat) (s : State) :
    exec (.muli xx) s =
    perform s (fun p => do
      let (c, src) ← operandI xx
      let t ← arith .mul c src s
      .ok (t.finish p 1)) := rfl

theorem exec_muliw (w : CellValue) (s : State) :
    exec (.muliw w) s =
    perform s (fun p => do
      let (c, src) ← operandIW w p
      let t ← arith .mul c src s
      .ok (t.finish p 2)) := rfl

theorem exec_muln (xx : Nat) (s : State) :
    exec (.muln xx) s =
    perform s (fun p => do
      let (c, src) ← operandN xx s
      let t ← arith .mul c src s
      .ok (t.finish p 1)) := rfl

theorem exec_mulnw (w : CellValue) (s : State) :
    exec (.mulnw w) s =
    perform s (fun p => do
      let (c, src) ← operandNW w p s
      let t ← arith .mul c src s
      .ok (t.finish p 2)) := rfl

end Sys2Proof.Machine
end

