-- ==== Sys2Proof/Laws/Memory.lean ====
section
/-!
SUPPORT. Reading after writing, and the canonical form of memory.
-/

namespace Sys2Proof.Machine

@[simp] theorem Memory.read_nil (a : Nat) : Memory.read [] a = none := rfl

theorem Memory.read_cons (b : Nat) (c : CellValue) (m : Memory) (a : Nat) :
    Memory.read ((b, c) :: m) a = if b = a then some c else Memory.read m a := rfl

/-- A cell reads as it was last written; every other cell as before (R63). -/
theorem Memory.read_write (m : Memory) (a : Nat) (v : CellValue) (b : Nat) :
    (m.write a v).read b = if b = a then some v else m.read b := by
  induction m with
  | nil => simp [Memory.write, Memory.read, eq_comm]
  | cons e m ih =>
    obtain ⟨k, c⟩ := e
    simp only [Memory.write]
    split
    · simp [Memory.read, eq_comm]
    · split
      · simp only [Memory.read]; grind
      · simp only [Memory.read, ih]; grind

@[simp] theorem Memory.read_write_same (m : Memory) (a : Nat) (v : CellValue) : (m.write a v).read a = some v := by
  simp [Memory.read_write]

theorem Memory.read_write_other (m : Memory) {a b : Nat} (v : CellValue) (h : b ≠ a) :
    (m.write a v).read b = m.read b := by
  simp [Memory.read_write, h]

/-- A write never leaves FILLER where a value was (R36). -/
theorem Memory.read_write_ne_none (m : Memory) (a : Nat) (v : CellValue) (b : Nat) (h : m.read b ≠ none) :
    (m.write a v).read b ≠ none := by
  rw [Memory.read_write]; split <;> simp_all

theorem Memory.wfFrom_mono {lo lo' : Nat} (h : lo' ≤ lo) (m : Memory) (hm : m.wfFrom lo = true) : m.wfFrom lo' = true := by
  cases m with
  | nil => rfl
  | cons e m =>
    simp only [Memory.wfFrom, Bool.and_eq_true, decide_eq_true_eq] at hm ⊢
    exact ⟨⟨by omega, hm.1.2⟩, hm.2⟩

/-- A write keeps the canonical form. -/
theorem Memory.wfFrom_write (m : Memory) (lo a : Nat) (v : CellValue) (hm : m.wfFrom lo = true) (hlo : lo ≤ a)
    (ha : a < Config.memSize) : (m.write a v).wfFrom lo = true := by
  induction m generalizing lo with
  | nil => simp [Memory.write, Memory.wfFrom, hlo, ha]
  | cons e m ih =>
    obtain ⟨k, c⟩ := e
    simp only [Memory.wfFrom, Bool.and_eq_true, decide_eq_true_eq] at hm
    obtain ⟨⟨h1, h2⟩, h3⟩ := hm
    simp only [Memory.write]
    split
    · rename_i hak
      simp only [Memory.wfFrom, Bool.and_eq_true, decide_eq_true_eq]
      exact ⟨⟨hlo, ha⟩, ⟨⟨hak, h2⟩, h3⟩⟩
    · split
      · rename_i hak
        subst hak
        simp only [Memory.wfFrom, Bool.and_eq_true, decide_eq_true_eq]
        exact ⟨⟨hlo, ha⟩, h3⟩
      · simp only [Memory.wfFrom, Bool.and_eq_true, decide_eq_true_eq]
        exact ⟨⟨h1, h2⟩, ih (k + 1) h3 (by omega)⟩

theorem Memory.wf_write (m : Memory) (a : Nat) (v : CellValue) (hm : m.wf = true) (ha : a < Config.memSize) :
    (m.write a v).wf = true :=
  Memory.wfFrom_write m 0 a v hm (Nat.zero_le a) ha

/-- The cells `reset()` writes are in canonical form. -/
theorem wfFrom_zeroCells (n a : Nat) (h : a + n ≤ Config.memSize) : (zeroCells n a).wfFrom a = true := by
  induction n generalizing a with
  | zero => rfl
  | succ k ih =>
    simp only [zeroCells, Memory.wfFrom, Bool.and_eq_true, decide_eq_true_eq]
    exact ⟨⟨Nat.le_refl a, by omega⟩, ih (a + 1) (by omega)⟩

theorem wf_zeroCells : (zeroCells Config.memSize 0).wf = true := wfFrom_zeroCells _ 0 (by omega)

/-- The cells `reset()` writes read as `"00000"`. -/
theorem read_zeroCells (n a b : Nat) (h : a ≤ b) (h' : b < a + n) : (zeroCells n a).read b = some CellValue.zero := by
  induction n generalizing a with
  | zero => omega
  | succ n ih =>
    simp only [zeroCells, Memory.read]
    split
    · rfl
    · exact ih _ (by omega) (by omega)

/-- The lines of a load keep the canonical form, whether or not they all apply. -/
theorem parseLine_inRange {l : Line} {a : Nat} {c : CellValue} (h : parseLine l = some (a, c)) : a < Config.memSize := by
  unfold parseLine at h
  split at h
  · split at h
    · rename_i hc
      split at h
      · simp only [Option.some.injEq, Prod.mk.injEq] at h
        simp [inRange] at hc
        omega
      · cases h
    · cases h
  · cases h

theorem wf_applyLines (ls : List Line) (m : Memory) (hm : m.wf = true) : (applyLines ls m).1.wf = true := by
  induction ls generalizing m with
  | nil => exact hm
  | cons l ls ih =>
    simp only [applyLines]
    split
    · exact hm
    · rename_i a c h
      exact ih _ (Memory.wf_write m a c hm (parseLine_inRange h))

/-- The memory at creation is in canonical form. -/
theorem wf_reset : State.reset.mem.wf = true := rfl

end Sys2Proof.Machine
end

