-- ==== Sys2Proof/Laws/State.lean ====
section
/-!
SUPPORT. What each named update of State does to each field, so that no proof unfolds a record update.
-/

namespace Sys2Proof.Machine

/-! ### `State.setAcc` -/

@[simp] theorem setAcc_acc (s : State) (v : CellValue) : (s.setAcc v).acc = some v := rfl
@[simp] theorem setAcc_ip (s : State) (v : CellValue) : (s.setAcc v).ip = s.ip := rfl
@[simp] theorem setAcc_sp (s : State) (v : CellValue) : (s.setAcc v).sp = s.sp := rfl
@[simp] theorem setAcc_bp (s : State) (v : CellValue) : (s.setAcc v).bp = s.bp := rfl
@[simp] theorem setAcc_zero (s : State) (v : CellValue) : (s.setAcc v).zero = s.zero := rfl
@[simp] theorem setAcc_negative (s : State) (v : CellValue) : (s.setAcc v).negative = s.negative := rfl
@[simp] theorem setAcc_loaded (s : State) (v : CellValue) : (s.setAcc v).loaded = s.loaded := rfl
@[simp] theorem setAcc_halted (s : State) (v : CellValue) : (s.setAcc v).halted = s.halted := rfl
@[simp] theorem setAcc_mem (s : State) (v : CellValue) : (s.setAcc v).mem = s.mem := rfl
@[simp] theorem setAcc_status (s : State) (v : CellValue) : (s.setAcc v).status = s.status := rfl

/-! ### `State.setSp` -/

@[simp] theorem setSp_acc (s : State) (n : Nat) : (s.setSp n).acc = s.acc := rfl
@[simp] theorem setSp_ip (s : State) (n : Nat) : (s.setSp n).ip = s.ip := rfl
@[simp] theorem setSp_sp (s : State) (n : Nat) : (s.setSp n).sp = n := rfl
@[simp] theorem setSp_bp (s : State) (n : Nat) : (s.setSp n).bp = s.bp := rfl
@[simp] theorem setSp_zero (s : State) (n : Nat) : (s.setSp n).zero = s.zero := rfl
@[simp] theorem setSp_negative (s : State) (n : Nat) : (s.setSp n).negative = s.negative := rfl
@[simp] theorem setSp_loaded (s : State) (n : Nat) : (s.setSp n).loaded = s.loaded := rfl
@[simp] theorem setSp_halted (s : State) (n : Nat) : (s.setSp n).halted = s.halted := rfl
@[simp] theorem setSp_mem (s : State) (n : Nat) : (s.setSp n).mem = s.mem := rfl
@[simp] theorem setSp_status (s : State) (n : Nat) : (s.setSp n).status = s.status := rfl

/-! ### `State.setMem` -/

@[simp] theorem setMem_acc (s : State) (m : Memory) : (s.setMem m).acc = s.acc := rfl
@[simp] theorem setMem_ip (s : State) (m : Memory) : (s.setMem m).ip = s.ip := rfl
@[simp] theorem setMem_sp (s : State) (m : Memory) : (s.setMem m).sp = s.sp := rfl
@[simp] theorem setMem_bp (s : State) (m : Memory) : (s.setMem m).bp = s.bp := rfl
@[simp] theorem setMem_zero (s : State) (m : Memory) : (s.setMem m).zero = s.zero := rfl
@[simp] theorem setMem_negative (s : State) (m : Memory) : (s.setMem m).negative = s.negative := rfl
@[simp] theorem setMem_loaded (s : State) (m : Memory) : (s.setMem m).loaded = s.loaded := rfl
@[simp] theorem setMem_halted (s : State) (m : Memory) : (s.setMem m).halted = s.halted := rfl
@[simp] theorem setMem_mem (s : State) (m : Memory) : (s.setMem m).mem = m := rfl
@[simp] theorem setMem_status (s : State) (m : Memory) : (s.setMem m).status = s.status := rfl

/-! ### `State.report` -/

@[simp] theorem report_acc (s : State) (r : Status) : (s.report r).acc = s.acc := rfl
@[simp] theorem report_ip (s : State) (r : Status) : (s.report r).ip = s.ip := rfl
@[simp] theorem report_sp (s : State) (r : Status) : (s.report r).sp = s.sp := rfl
@[simp] theorem report_bp (s : State) (r : Status) : (s.report r).bp = s.bp := rfl
@[simp] theorem report_zero (s : State) (r : Status) : (s.report r).zero = s.zero := rfl
@[simp] theorem report_negative (s : State) (r : Status) : (s.report r).negative = s.negative := rfl
@[simp] theorem report_loaded (s : State) (r : Status) : (s.report r).loaded = s.loaded := rfl
@[simp] theorem report_halted (s : State) (r : Status) : (s.report r).halted = s.halted := rfl
@[simp] theorem report_mem (s : State) (r : Status) : (s.report r).mem = s.mem := rfl
@[simp] theorem report_status (s : State) (r : Status) : (s.report r).status = r := rfl

/-! ### `State.finish` -/

@[simp] theorem finish_acc (s : State) (p n : Nat) : (s.finish p n).acc = s.acc := rfl
@[simp] theorem finish_ip (s : State) (p n : Nat) : (s.finish p n).ip = some (p + n) := rfl
@[simp] theorem finish_sp (s : State) (p n : Nat) : (s.finish p n).sp = s.sp := rfl
@[simp] theorem finish_bp (s : State) (p n : Nat) : (s.finish p n).bp = s.bp := rfl
@[simp] theorem finish_zero (s : State) (p n : Nat) : (s.finish p n).zero = s.zero := rfl
@[simp] theorem finish_negative (s : State) (p n : Nat) : (s.finish p n).negative = s.negative := rfl
@[simp] theorem finish_loaded (s : State) (p n : Nat) : (s.finish p n).loaded = s.loaded := rfl
@[simp] theorem finish_halted (s : State) (p n : Nat) : (s.finish p n).halted = s.halted := rfl
@[simp] theorem finish_mem (s : State) (p n : Nat) : (s.finish p n).mem = s.mem := rfl
@[simp] theorem finish_status (s : State) (p n : Nat) : (s.finish p n).status = .ok := rfl

/-! ### `State.jump` -/

@[simp] theorem jump_acc (s : State) (a : Nat) : (s.jump a).acc = s.acc := rfl
@[simp] theorem jump_ip (s : State) (a : Nat) : (s.jump a).ip = some a := rfl
@[simp] theorem jump_sp (s : State) (a : Nat) : (s.jump a).sp = s.sp := rfl
@[simp] theorem jump_bp (s : State) (a : Nat) : (s.jump a).bp = s.bp := rfl
@[simp] theorem jump_zero (s : State) (a : Nat) : (s.jump a).zero = s.zero := rfl
@[simp] theorem jump_negative (s : State) (a : Nat) : (s.jump a).negative = s.negative := rfl
@[simp] theorem jump_loaded (s : State) (a : Nat) : (s.jump a).loaded = s.loaded := rfl
@[simp] theorem jump_halted (s : State) (a : Nat) : (s.jump a).halted = s.halted := rfl
@[simp] theorem jump_mem (s : State) (a : Nat) : (s.jump a).mem = s.mem := rfl
@[simp] theorem jump_status (s : State) (a : Nat) : (s.jump a).status = .ok := rfl

/-! ### `State.halt` -/

@[simp] theorem halt_acc (s : State) : (s.halt).acc = s.acc := rfl
@[simp] theorem halt_ip (s : State) : (s.halt).ip = s.ip := rfl
@[simp] theorem halt_sp (s : State) : (s.halt).sp = s.sp := rfl
@[simp] theorem halt_bp (s : State) : (s.halt).bp = s.bp := rfl
@[simp] theorem halt_zero (s : State) : (s.halt).zero = s.zero := rfl
@[simp] theorem halt_negative (s : State) : (s.halt).negative = s.negative := rfl
@[simp] theorem halt_loaded (s : State) : (s.halt).loaded = s.loaded := rfl
@[simp] theorem halt_halted (s : State) : (s.halt).halted = .yes := rfl
@[simp] theorem halt_mem (s : State) : (s.halt).mem = s.mem := rfl
@[simp] theorem halt_status (s : State) : (s.halt).status = .haltExecuted := rfl

/-! ### `State.takeFault` -/

@[simp] theorem takeFault_acc (s : State) (f : Fault) : (s.takeFault f).acc = s.acc := rfl
@[simp] theorem takeFault_ip (s : State) (f : Fault) : (s.takeFault f).ip = s.ip := rfl
@[simp] theorem takeFault_sp (s : State) (f : Fault) : (s.takeFault f).sp = s.sp := rfl
@[simp] theorem takeFault_bp (s : State) (f : Fault) : (s.takeFault f).bp = s.bp := rfl
@[simp] theorem takeFault_zero (s : State) (f : Fault) : (s.takeFault f).zero = s.zero := rfl
@[simp] theorem takeFault_negative (s : State) (f : Fault) : (s.takeFault f).negative = s.negative := rfl
@[simp] theorem takeFault_loaded (s : State) (f : Fault) : (s.takeFault f).loaded = s.loaded := rfl
@[simp] theorem takeFault_halted (s : State) (f : Fault) : (s.takeFault f).halted = .yes := rfl
@[simp] theorem takeFault_mem (s : State) (f : Fault) : (s.takeFault f).mem = s.mem := rfl
@[simp] theorem takeFault_status (s : State) (f : Fault) : (s.takeFault f).status = .fault f := rfl

/-! ### `State.clearHalted` -/

@[simp] theorem clearHalted_acc (s : State) : (s.clearHalted).acc = s.acc := rfl
@[simp] theorem clearHalted_ip (s : State) : (s.clearHalted).ip = s.ip := rfl
@[simp] theorem clearHalted_sp (s : State) : (s.clearHalted).sp = s.sp := rfl
@[simp] theorem clearHalted_bp (s : State) : (s.clearHalted).bp = s.bp := rfl
@[simp] theorem clearHalted_zero (s : State) : (s.clearHalted).zero = s.zero := rfl
@[simp] theorem clearHalted_negative (s : State) : (s.clearHalted).negative = s.negative := rfl
@[simp] theorem clearHalted_loaded (s : State) : (s.clearHalted).loaded = s.loaded := rfl
@[simp] theorem clearHalted_halted (s : State) : (s.clearHalted).halted = .no := rfl
@[simp] theorem clearHalted_mem (s : State) : (s.clearHalted).mem = s.mem := rfl
@[simp] theorem clearHalted_status (s : State) : (s.clearHalted).status = s.status := rfl

/-! ### `State.setFlags` -/

@[simp] theorem setFlags_acc (s : State) (r : Int) : (s.setFlags r).acc = s.acc := rfl
@[simp] theorem setFlags_ip (s : State) (r : Int) : (s.setFlags r).ip = s.ip := rfl
@[simp] theorem setFlags_sp (s : State) (r : Int) : (s.setFlags r).sp = s.sp := rfl
@[simp] theorem setFlags_bp (s : State) (r : Int) : (s.setFlags r).bp = s.bp := rfl
@[simp] theorem setFlags_zero (s : State) (r : Int) : (s.setFlags r).zero = decide (r = 0) := rfl
@[simp] theorem setFlags_negative (s : State) (r : Int) : (s.setFlags r).negative = decide (r < 0) := rfl
@[simp] theorem setFlags_loaded (s : State) (r : Int) : (s.setFlags r).loaded = s.loaded := rfl
@[simp] theorem setFlags_halted (s : State) (r : Int) : (s.setFlags r).halted = s.halted := rfl
@[simp] theorem setFlags_mem (s : State) (r : Int) : (s.setFlags r).mem = s.mem := rfl
@[simp] theorem setFlags_status (s : State) (r : Int) : (s.setFlags r).status = s.status := rfl

/-! ### `State.beginStep` -/

@[simp] theorem beginStep_acc (s : State) : (s.beginStep).acc = s.acc := rfl
@[simp] theorem beginStep_ip (s : State) : (s.beginStep).ip = s.ip := rfl
@[simp] theorem beginStep_sp (s : State) : (s.beginStep).sp = s.sp := rfl
@[simp] theorem beginStep_bp (s : State) : (s.beginStep).bp = s.bp := rfl
@[simp] theorem beginStep_zero (s : State) : (s.beginStep).zero = s.zero := rfl
@[simp] theorem beginStep_negative (s : State) : (s.beginStep).negative = s.negative := rfl
@[simp] theorem beginStep_loaded (s : State) : (s.beginStep).loaded = s.loaded := rfl
@[simp] theorem beginStep_halted (s : State) : (s.beginStep).halted = if s.halted = .unset then .no else s.halted := rfl
@[simp] theorem beginStep_mem (s : State) : (s.beginStep).mem = s.mem := rfl
@[simp] theorem beginStep_status (s : State) : (s.beginStep).status = s.status := rfl

end Sys2Proof.Machine
end

