-- ==== Sys2Proof/Laws/Ops.lean ====
section
/-!
SUPPORT. One lemma per shared operation that says everything it can answer; later proofs cite these and unfold nothing.
-/

namespace Sys2Proof.Machine

/-! ## Sequencing -/

theorem bind_eq_ok {α β : Type} (x : Except Fault α) (f : α → Except Fault β) (b : β) :
    (x >>= f) = .ok b ↔ ∃ a, x = .ok a ∧ f a = .ok b := by
  cases x <;> simp [bind, Except.bind]

theorem bind_eq_error {α β : Type} (x : Except Fault α) (f : α → Except Fault β) (e : Fault) :
    (x >>= f) = .error e ↔ x = .error e ∨ ∃ a, x = .ok a ∧ f a = .error e := by
  cases x <;> simp [bind, Except.bind]

@[simp] theorem ok_bind {α β : Type} (a : α) (f : α → Except Fault β) : ((Except.ok a : Except Fault α) >>= f) = f a := (rfl)

@[simp] theorem error_bind {α β : Type} (e : Fault) (f : α → Except Fault β) :
    ((Except.error e : Except Fault α) >>= f) = .error e := (rfl)

/-! ## One instruction -/

theorem perform_of_ok {s t : State} {p : Nat} {rule : Nat → Except Fault State} (hp : s.ip = some p) (h : rule p = .ok t) :
    perform s rule = .next t := by
  simp [perform, hp, h]

theorem perform_of_error {s : State} {p : Nat} {f : Fault} {rule : Nat → Except Fault State} (hp : s.ip = some p)
    (h : rule p = .error f) : perform s rule = .next (s.takeFault f) := by
  simp [perform, hp, h]

/-- Everything one instruction can answer (R104): all its writes, or a fault and none of them. -/
theorem perform_eq_next {s t : State} {rule : Nat → Except Fault State} (h : perform s rule = .next t) :
    (∃ p, s.ip = some p ∧ rule p = .ok t) ∨ (∃ f, t = s.takeFault f) := by
  unfold perform at h
  split at h
  · cases h; exact .inr ⟨_, rfl⟩
  · rename_i p hp
    split at h
    · cases h; exact .inl ⟨p, hp, ‹_›⟩
    · cases h; exact .inr ⟨_, rfl⟩

theorem perform_answers (s : State) (rule : Nat → Except Fault State) : ∃ t, perform s rule = .next t := by
  unfold perform
  split
  · exact ⟨_, rfl⟩
  · split <;> exact ⟨_, rfl⟩

/-! ## The checked primitives -/

@[simp] theorem inRange_natCast (a : Nat) : inRange (a : Int) = decide (a < 10000) := by
  simp [inRange, Config.memSize]

theorem memRead_eq (s : State) (a : Nat) :
    memRead s a = if a < 10000 then .ok (s.mem.read a) else .error (.addressOutOfRange a) := by
  simp [memRead]

theorem memWrite_eq (s : State) (a : Nat) (v : CellValue) :
    memWrite s a v = if a < 10000 then .ok (s.setMem (s.mem.write a v)) else .error (.addressOutOfRange a) := by
  simp [memWrite]

theorem memWrite_ok (s t : State) (a : Nat) (v : CellValue) :
    memWrite s a v = .ok t ↔ a < 10000 ∧ s.setMem (s.mem.write a v) = t := by
  rw [memWrite_eq]; split <;> simp_all

theorem dataRead_ok (s : State) (a : Nat) (c : CellValue) :
    dataRead s a = .ok c ↔ a < 10000 ∧ s.mem.read a = some c := by
  simp only [dataRead, memRead_eq]
  split
  · cases h : s.mem.read a <;> simp_all
  · simp_all

theorem dataRead_error (s : State) (a : Nat) (f : Fault) :
    dataRead s a = .error f ↔
      (¬ a < 10000 ∧ f = .addressOutOfRange a) ∨ (a < 10000 ∧ s.mem.read a = none ∧ f = .invalidWord (.mem a)) := by
  simp only [dataRead, memRead_eq]
  split
  · cases h : s.mem.read a <;> simp_all [eq_comm (a := f)]
  · simp_all [eq_comm (a := f)]

theorem num_ok (c : CellValue) (src : Src) (x : Int) : num c src = .ok x ↔ c.d0.val ≤ 1 ∧ decodeNum c = x := by
  unfold num; split <;> simp_all [CellValue.isNumeric]

theorem num_error (c : CellValue) (src : Src) (f : Fault) :
    num c src = .error f ↔ ¬ c.d0.val ≤ 1 ∧ f = .invalidWord src := by
  unfold num; split <;> simp_all [CellValue.isNumeric, eq_comm]

theorem addr_ok (c : CellValue) (src : Src) (b : Nat) :
    addr c src = .ok b ↔ c.d0.val ≤ 1 ∧ decodeNum c = (b : Int) := by
  simp only [addr, bind_eq_ok, num_ok]
  constructor
  · rintro ⟨v, ⟨h, rfl⟩, hv⟩
    split at hv
    · cases hv
    · simp only [Except.ok.injEq] at hv; exact ⟨h, by omega⟩
  · rintro ⟨h, hb⟩
    refine ⟨_, ⟨h, rfl⟩, ?_⟩
    rw [if_neg (by omega)]
    simp [hb]

theorem addr_error (c : CellValue) (src : Src) (f : Fault) :
    addr c src = .error f ↔
      (¬ c.d0.val ≤ 1 ∧ f = .invalidWord src) ∨
      (c.d0.val ≤ 1 ∧ decodeNum c < 0 ∧ f = .addressOutOfRange (decodeNum c)) := by
  simp only [addr, bind_eq_error, num_error, num_ok]
  constructor
  · rintro (h | ⟨v, ⟨h, rfl⟩, hv⟩)
    · exact .inl h
    · split at hv
      · cases hv; exact .inr ⟨h, ‹_›, rfl⟩
      · cases hv
  · rintro (h | ⟨h, hn, rfl⟩)
    · exact .inl h
    · exact .inr ⟨_, ⟨h, rfl⟩, by rw [if_pos hn]⟩

theorem accRead_ok (s : State) (c : CellValue) : accRead s = .ok c ↔ s.acc = some c := by
  unfold accRead; split <;> simp_all

theorem accRead_error (s : State) (f : Fault) : accRead s = .error f ↔ s.acc = none ∧ f = .accUnset := by
  unfold accRead; split <;> simp_all [eq_comm]

/-! ## The stack -/

theorem push_ok (s t : State) (v : CellValue) :
    push s v = .ok t ↔
      0 < s.sp ∧ s.sp - 1 < 10000 ∧ (s.setMem (s.mem.write (s.sp - 1) v)).setSp (s.sp - 1) = t := by
  unfold push
  split
  · simp; omega
  · simp only [bind_eq_ok, memWrite_ok, Except.ok.injEq]
    constructor
    · rintro ⟨_, ⟨h, rfl⟩, rfl⟩; exact ⟨by omega, h, rfl⟩
    · rintro ⟨_, h, rfl⟩; exact ⟨_, ⟨h, rfl⟩, rfl⟩

theorem push_error_of_sp_zero (s : State) (v : CellValue) (h : s.sp = 0) : push s v = .error (.stackOverflow 0) := by
  simp [push, h]

theorem push_error (s : State) (v : CellValue) (f : Fault) :
    push s v = .error f ↔
      (s.sp = 0 ∧ f = .stackOverflow 0) ∨ (10000 < s.sp ∧ f = .addressOutOfRange ((s.sp - 1 : Nat) : Int)) := by
  unfold push
  split
  · rename_i h
    have h0 : s.sp = 0 := by omega
    simp [h0, eq_comm]
  · simp only [bind_eq_error, memWrite_eq]
    split
    · simp; omega
    · rename_i h1 h2
      have h3 : s.sp ≠ 0 := by omega
      have h4 : 10000 < s.sp := by omega
      simp [h3, h4, eq_comm (a := f)]

theorem pop_ok (s t : State) (v : CellValue) :
    pop s = .ok (v, t) ↔ s.sp < s.bp ∧ s.sp < 10000 ∧ s.mem.read s.sp = some v ∧ s.setSp (s.sp + 1) = t := by
  unfold pop
  split
  · simp; omega
  · simp only [bind_eq_ok, dataRead_ok, Except.ok.injEq, Prod.mk.injEq]
    constructor
    · rintro ⟨_, ⟨h1, h2⟩, rfl, rfl⟩; exact ⟨by omega, h1, h2, rfl⟩
    · rintro ⟨_, h1, h2, rfl⟩; exact ⟨_, ⟨h1, h2⟩, rfl, rfl⟩

theorem pop_error (s : State) (f : Fault) :
    pop s = .error f ↔
      (s.bp ≤ s.sp ∧ f = .stackUnderflow s.sp) ∨ (s.sp < s.bp ∧ dataRead s s.sp = .error f) := by
  unfold pop
  split
  · have h1 : s.bp ≤ s.sp := by omega
    have h2 : ¬ s.sp < s.bp := by omega
    simp [h1, h2, eq_comm (a := f)]
  · have h1 : ¬ s.bp ≤ s.sp := by omega
    have h2 : s.sp < s.bp := by omega
    simp [h1, h2, bind_eq_error]

/-! ## Arithmetic -/

theorem checkRange_ok (r : Int) (u : Unit) : checkRange r = .ok u ↔ -9999 ≤ r ∧ r ≤ 9999 := by
  unfold checkRange Config.magMax; split <;> simp <;> omega

theorem checkRange_error (r : Int) (f : Fault) :
    checkRange r = .error f ↔ (r < -9999 ∨ 9999 < r) ∧ f = .arithmeticOverflow r := by
  unfold checkRange Config.magMax; split <;> simp [eq_comm] <;> omega

theorem arith_ok (op : ArithOp) (c : CellValue) (src : Src) (s t : State) :
    arith op c src s = .ok t ↔
      ∃ u, s.acc = some u ∧ u.d0.val ≤ 1 ∧ c.d0.val ≤ 1 ∧
        -9999 ≤ op.apply (decodeNum u) (decodeNum c) ∧ op.apply (decodeNum u) (decodeNum c) ≤ 9999 ∧
        (s.setAcc (encodeNum (op.apply (decodeNum u) (decodeNum c)))).setFlags (op.apply (decodeNum u) (decodeNum c)) = t := by
  simp only [arith, bind_eq_ok, accRead_ok, num_ok, checkRange_ok, Except.ok.injEq]
  constructor
  · rintro ⟨u, hu, x, ⟨h1, rfl⟩, y, ⟨h2, rfl⟩, _, ⟨h3, h4⟩, rfl⟩
    exact ⟨u, hu, h1, h2, h3, h4, rfl⟩
  · rintro ⟨u, hu, h1, h2, h3, h4, rfl⟩
    exact ⟨u, hu, _, ⟨h1, rfl⟩, _, ⟨h2, rfl⟩, (), ⟨h3, h4⟩, rfl⟩

theorem arith_error (op : ArithOp) (c : CellValue) (src : Src) (s : State) (f : Fault) :
    arith op c src s = .error f ↔
      (s.acc = none ∧ f = .accUnset) ∨
      (∃ u, s.acc = some u ∧
        ((¬ u.d0.val ≤ 1 ∧ f = .invalidWord .acc) ∨
         (u.d0.val ≤ 1 ∧ ¬ c.d0.val ≤ 1 ∧ f = .invalidWord src) ∨
         (u.d0.val ≤ 1 ∧ c.d0.val ≤ 1 ∧
          (op.apply (decodeNum u) (decodeNum c) < -9999 ∨ 9999 < op.apply (decodeNum u) (decodeNum c)) ∧
          f = .arithmeticOverflow (op.apply (decodeNum u) (decodeNum c))))) := by
  simp only [arith, bind_eq_error, accRead_error, accRead_ok, num_error, num_ok, checkRange_error, checkRange_ok]
  constructor
  · rintro (h | ⟨u, hu, h | ⟨x, ⟨h1, rfl⟩, h | ⟨y, ⟨h2, rfl⟩, h | ⟨_, _, h⟩⟩⟩⟩)
    · exact .inl h
    · exact .inr ⟨u, hu, .inl h⟩
    · exact .inr ⟨u, hu, .inr (.inl ⟨h1, h⟩)⟩
    · exact .inr ⟨u, hu, .inr (.inr ⟨h1, h2, h⟩)⟩
    · cases h
  · rintro (h | ⟨u, hu, h | ⟨h1, h⟩ | ⟨h1, h2, h⟩⟩)
    · exact .inl h
    · exact .inr ⟨u, hu, .inl h⟩
    · exact .inr ⟨u, hu, .inr ⟨_, ⟨h1, rfl⟩, .inl h⟩⟩
    · exact .inr ⟨u, hu, .inr ⟨_, ⟨h1, rfl⟩, .inr ⟨_, ⟨h2, rfl⟩, .inl h⟩⟩⟩

theorem addToCell_ok (a : Nat) (d : Int) (s t : State) :
    addToCell a d s = .ok t ↔
      ∃ c, a < 10000 ∧ s.mem.read a = some c ∧ c.d0.val ≤ 1 ∧ -9999 ≤ decodeNum c + d ∧ decodeNum c + d ≤ 9999 ∧
        (s.setMem (s.mem.write a (encodeNum (decodeNum c + d)))).setFlags (decodeNum c + d) = t := by
  simp only [addToCell, bind_eq_ok, dataRead_ok, num_ok, checkRange_ok, memWrite_ok, Except.ok.injEq]
  constructor
  · rintro ⟨c, ⟨ha, hc⟩, x, ⟨h1, rfl⟩, _, ⟨h3, h4⟩, _, ⟨_, rfl⟩, rfl⟩
    exact ⟨c, ha, hc, h1, h3, h4, rfl⟩
  · rintro ⟨c, ha, hc, h1, h3, h4, rfl⟩
    exact ⟨c, ⟨ha, hc⟩, _, ⟨h1, rfl⟩, (), ⟨h3, h4⟩, _, ⟨ha, rfl⟩, rfl⟩

theorem addToCell_error (a : Nat) (d : Int) (s : State) (f : Fault) (ha : a < 10000) :
    addToCell a d s = .error f ↔
      (s.mem.read a = none ∧ f = .invalidWord (.mem a)) ∨
      (∃ c, s.mem.read a = some c ∧
        ((¬ c.d0.val ≤ 1 ∧ f = .invalidWord (.mem a)) ∨
         (c.d0.val ≤ 1 ∧ (decodeNum c + d < -9999 ∨ 9999 < decodeNum c + d) ∧ f = .arithmeticOverflow (decodeNum c + d)))) := by
  simp only [addToCell, bind_eq_error, dataRead_error, dataRead_ok, num_error, num_ok, checkRange_error, checkRange_ok, memWrite_eq,
    ha, not_true_eq_false, false_and, true_and, false_or, if_true]
  constructor
  · rintro (h | ⟨c, hc, h | ⟨x, ⟨h1, rfl⟩, h | ⟨_, _, h | ⟨_, _, h⟩⟩⟩⟩)
    · exact .inl h
    · exact .inr ⟨c, hc, .inl h⟩
    · exact .inr ⟨c, hc, .inr ⟨h1, h⟩⟩
    · cases h
    · cases h
  · rintro (h | ⟨c, hc, h | ⟨h1, h⟩⟩)
    · exact .inl h
    · exact .inr ⟨c, hc, .inl h⟩
    · exact .inr ⟨c, hc, .inr ⟨_, ⟨h1, rfl⟩, .inl h⟩⟩

/-! ## Operand forms -/

theorem operandDirect_ok (a : Nat) (s : State) (c : CellValue) (src : Src) :
    operandDirect a s = .ok (c, src) ↔ a < 10000 ∧ s.mem.read a = some c ∧ src = .mem a := by
  simp only [operandDirect, bind_eq_ok, dataRead_ok, Except.ok.injEq, Prod.mk.injEq]
  constructor
  · rintro ⟨_, ⟨h1, h2⟩, rfl, rfl⟩; exact ⟨h1, h2, rfl⟩
  · rintro ⟨h1, h2, rfl⟩; exact ⟨_, ⟨h1, h2⟩, rfl, rfl⟩

theorem throughPointer_ok (a : Nat) (s : State) (c : CellValue) (src : Src) :
    throughPointer a s = .ok (c, src) ↔
      ∃ (q : CellValue) (b : Nat), a < 10000 ∧ s.mem.read a = some q ∧ q.d0.val ≤ 1 ∧ decodeNum q = (b : Int) ∧ b < 10000 ∧ s.mem.read b = some c ∧
        src = .mem b := by
  simp only [throughPointer, bind_eq_ok, dataRead_ok, addr_ok, Except.ok.injEq, Prod.mk.injEq]
  constructor
  · rintro ⟨q, ⟨h1, h2⟩, b, ⟨h3, h4⟩, c', ⟨h5, h6⟩, rfl, rfl⟩
    exact ⟨q, b, h1, h2, h3, h4, h5, h6, rfl⟩
  · rintro ⟨q, b, h1, h2, h3, h4, h5, h6, rfl⟩
    exact ⟨q, ⟨h1, h2⟩, b, ⟨h3, h4⟩, c, ⟨h5, h6⟩, rfl, rfl⟩

theorem operandNW_ok (w : CellValue) (p : Nat) (s : State) (c : CellValue) (src : Src) :
    operandNW w p s = .ok (c, src) ↔
      ∃ a : Nat, w.d0.val ≤ 1 ∧ decodeNum w = (a : Int) ∧ throughPointer a s = .ok (c, src) := by
  simp only [operandNW, bind_eq_ok, addr_ok]
  constructor
  · rintro ⟨a, ⟨h1, h2⟩, h3⟩; exact ⟨a, h1, h2, h3⟩
  · rintro ⟨a, h1, h2, h3⟩; exact ⟨a, ⟨h1, h2⟩, h3⟩

theorem operandDirect_error (a : Nat) (s : State) (f : Fault) :
    operandDirect a s = .error f ↔ dataRead s a = .error f := by
  simp [operandDirect, bind_eq_error]

/-- The faults through a pointer cell, in the order of the reads (R183): the pointer cell, its content as an address, the final cell. -/
theorem throughPointer_error (a : Nat) (s : State) (f : Fault) :
    throughPointer a s = .error f ↔
      dataRead s a = .error f ∨
      ∃ q, dataRead s a = .ok q ∧ (addr q (.mem a) = .error f ∨ ∃ b, addr q (.mem a) = .ok b ∧ dataRead s b = .error f) := by
  simp only [throughPointer, bind_eq_error, reduceCtorEq, and_false, exists_false, or_false]

theorem operandNW_error (w : CellValue) (p : Nat) (s : State) (f : Fault) :
    operandNW w p s = .error f ↔
      addr w (.mem (p + 1)) = .error f ∨ ∃ a, addr w (.mem (p + 1)) = .ok a ∧ throughPointer a s = .error f := by
  simp only [operandNW, bind_eq_error]

/-- A pointer's content, when it is an address at all, is an address of the machine (R59). -/
theorem addr_le {c : CellValue} {src : Src} {b : Nat} (h : addr c src = .ok b) : b ≤ 9999 := by
  have h1 := ((addr_ok c src b).1 h).2
  have h2 := decodeNum_range c
  omega

end Sys2Proof.Machine
end

