-- ==== Sys2Proof/Laws/Effect.lean ====
section
/-!
SUPPORT. What an instruction that completes can have done, instruction by instruction, and how a step reaches it: the inversion lemmas
`exec_next`, `step_next` and `fetchInstr_ok`, which frames and invariants cite instead of unfolding a meaning.
-/

namespace Sys2Proof.Machine

/-! ## Shapes of effects -/

/-- The cell `a` rewritten with a result, the flags set from it. -/
def CellEffect (a : Nat) (d : Int) (s : State) (p : Nat) (t : State) : Prop :=
  ∃ c, a < 10000 ∧ s.mem.read a = some c ∧ c.d0.val ≤ 1 ∧ -9999 ≤ decodeNum c + d ∧ decodeNum c + d ≤ 9999 ∧
    t = ((s.setMem (s.mem.write a (encodeNum (decodeNum c + d)))).setFlags (decodeNum c + d)).finish p 1

/-- A value pushed by an instruction of `n` words. -/
def PushEffect (v : CellValue) (n : Nat) (s : State) (p : Nat) (t : State) : Prop :=
  0 < s.sp ∧ s.sp - 1 < 10000 ∧ t = ((s.setMem (s.mem.write (s.sp - 1) v)).setSp (s.sp - 1)).finish p n

/-- The operand `c` loaded by an instruction of `n` words. -/
def LoadEffect (c : CellValue) (n : Nat) (s : State) (p : Nat) (t : State) : Prop := t = (s.setAcc c).finish p n

/-- Arithmetic on `acc` and the operand `c` by an instruction of `n` words. -/
def ArithEffect (op : ArithOp) (c : CellValue) (n : Nat) (s : State) (p : Nat) (t : State) : Prop :=
  ∃ u, s.acc = some u ∧ u.d0.val ≤ 1 ∧ c.d0.val ≤ 1 ∧
    -9999 ≤ op.apply (decodeNum u) (decodeNum c) ∧ op.apply (decodeNum u) (decodeNum c) ≤ 9999 ∧
    t = ((s.setAcc (encodeNum (op.apply (decodeNum u) (decodeNum c)))).setFlags (op.apply (decodeNum u) (decodeNum c))).finish p n

/-- What instruction `i` at `p` has done to `s` when it completes in `t`. -/
def Effect (i : Instr) (s : State) (p : Nat) (t : State) : Prop :=
  match i with
  | .halt => t = s.halt
  | .inc a => CellEffect a 1 s p t
  | .dec a => CellEffect a (-1) s p t
  | .push => ∃ v, s.acc = some v ∧ PushEffect v 1 s p t
  | .pop => ∃ v, s.sp < s.bp ∧ s.sp < 10000 ∧ s.mem.read s.sp = some v ∧ t = ((s.setSp (s.sp + 1)).setAcc v).finish p 1
  | .load a => ∃ c src, operandDirect a s = .ok (c, src) ∧ LoadEffect c 1 s p t
  | .store a => ∃ v, s.acc = some v ∧ a < 10000 ∧ t = (s.setMem (s.mem.write a v)).finish p 1
  | .add a => ∃ c src, operandDirect a s = .ok (c, src) ∧ ArithEffect .add c 1 s p t
  | .sub a => ∃ c src, operandDirect a s = .ok (c, src) ∧ ArithEffect .sub c 1 s p t
  | .mul a => ∃ c src, operandDirect a s = .ok (c, src) ∧ ArithEffect .mul c 1 s p t
  | .br a => t = s.jump a
  | .brn a => ∃ u, s.acc = some u ∧ t = if u.d0.val = 1 then s.jump a else s.finish p 1
  | .brz a => ∃ u, s.acc = some u ∧ t = if magnitude u = 0 then s.jump a else s.finish p 1
  | .brnf a => t = if s.negative = true then s.jump a else s.finish p 1
  | .brzf a => t = if s.zero = true then s.jump a else s.finish p 1
  | .pushi xx => PushEffect (zext5 xx) 1 s p t
  | .pushiw w => PushEffect w 2 s p t
  | .pushn xx => ∃ c src, operandN xx s = .ok (c, src) ∧ PushEffect c 1 s p t
  | .pushnw w => ∃ c src, operandNW w p s = .ok (c, src) ∧ PushEffect c 2 s p t
  | .ldi xx => LoadEffect (zext5 xx) 1 s p t
  | .ldiw w => LoadEffect w 2 s p t
  | .ldn xx => ∃ c src, operandN xx s = .ok (c, src) ∧ LoadEffect c 1 s p t
  | .ldnw w => ∃ c src, operandNW w p s = .ok (c, src) ∧ LoadEffect c 2 s p t
  | .addi xx => ArithEffect .add (zext5 xx) 1 s p t
  | .addiw w => ArithEffect .add w 2 s p t
  | .addn xx => ∃ c src, operandN xx s = .ok (c, src) ∧ ArithEffect .add c 1 s p t
  | .addnw w => ∃ c src, operandNW w p s = .ok (c, src) ∧ ArithEffect .add c 2 s p t
  | .subi xx => ArithEffect .sub (zext5 xx) 1 s p t
  | .subiw w => ArithEffect .sub w 2 s p t
  | .subn xx => ∃ c src, operandN xx s = .ok (c, src) ∧ ArithEffect .sub c 1 s p t
  | .subnw w => ∃ c src, operandNW w p s = .ok (c, src) ∧ ArithEffect .sub c 2 s p t
  | .muli xx => ArithEffect .mul (zext5 xx) 1 s p t
  | .muliw w => ArithEffect .mul w 2 s p t
  | .muln xx => ∃ c src, operandN xx s = .ok (c, src) ∧ ArithEffect .mul c 1 s p t
  | .mulnw w => ∃ c src, operandNW w p s = .ok (c, src) ∧ ArithEffect .mul c 2 s p t

/-! ## Each shared tail, inverted -/

theorem addToCell_finish {a : Nat} {d : Int} {s t : State} {p : Nat}
    (h : (do let u ← addToCell a d s; Except.ok (u.finish p 1)) = Except.ok t) : CellEffect a d s p t := by
  obtain ⟨u, hu, ht⟩ := (bind_eq_ok _ _ _).1 h
  obtain ⟨c, h1, h2, h3, h4, h5, rfl⟩ := (addToCell_ok _ _ _ _).1 hu
  cases ht
  exact ⟨c, h1, h2, h3, h4, h5, rfl⟩

theorem push_finish {v : CellValue} {n : Nat} {s t : State} {p : Nat}
    (h : (do let u ← push s v; Except.ok (u.finish p n)) = Except.ok t) : PushEffect v n s p t := by
  obtain ⟨u, hu, ht⟩ := (bind_eq_ok _ _ _).1 h
  obtain ⟨h1, h2, rfl⟩ := (push_ok _ _ _).1 hu
  cases ht
  exact ⟨h1, h2, rfl⟩

theorem arith_finish {op : ArithOp} {c : CellValue} {src : Src} {n : Nat} {s t : State} {p : Nat}
    (h : (do let u ← arith op c src s; Except.ok (u.finish p n)) = Except.ok t) : ArithEffect op c n s p t := by
  obtain ⟨u, hu, ht⟩ := (bind_eq_ok _ _ _).1 h
  obtain ⟨x, h1, h2, h3, h4, h5, rfl⟩ := (arith_ok _ _ _ _ _).1 hu
  cases ht
  exact ⟨x, h1, h2, h3, h4, h5, rfl⟩

theorem load_finish {c : CellValue} {n : Nat} {s t : State} {p : Nat}
    (h : (Except.ok ((s.setAcc c).finish p n) : Except Fault State) = Except.ok t) : LoadEffect c n s p t := by
  cases h; rfl

/-! ## The inversion of `exec` -/

/-- Everything `exec` can answer: a fault with nothing written, or the instruction's effect. -/
theorem exec_next {i : Instr} {s t : State} (h : exec i s = .next t) :
    (∃ f, t = s.takeFault f) ∨ ∃ p, s.ip = some p ∧ Effect i s p t := by
  cases i
  case halt =>
    rw [exec_halt] at h
    rcases perform_eq_next h with ⟨p, hp, hr⟩ | hf
    · cases hr; exact .inr ⟨p, hp, rfl⟩
    · exact .inl hf
  case inc a =>
    rw [exec_inc] at h
    rcases perform_eq_next h with ⟨p, hp, hr⟩ | hf
    · exact .inr ⟨p, hp, addToCell_finish hr⟩
    · exact .inl hf
  case dec a =>
    rw [exec_dec] at h
    rcases perform_eq_next h with ⟨p, hp, hr⟩ | hf
    · exact .inr ⟨p, hp, addToCell_finish hr⟩
    · exact .inl hf
  case push =>
    rw [exec_push] at h
    rcases perform_eq_next h with ⟨p, hp, hr⟩ | hf
    · obtain ⟨v, hv, hr⟩ := (bind_eq_ok _ _ _).1 hr
      exact .inr ⟨p, hp, v, (accRead_ok _ _).1 hv, push_finish hr⟩
    · exact .inl hf
  case pop =>
    rw [exec_pop] at h
    rcases perform_eq_next h with ⟨p, hp, hr⟩ | hf
    · obtain ⟨⟨v, u⟩, hv, hr⟩ := (bind_eq_ok _ _ _).1 hr
      obtain ⟨h1, h2, h3, rfl⟩ := (pop_ok _ _ _).1 hv
      cases hr
      exact .inr ⟨p, hp, v, h1, h2, h3, rfl⟩
    · exact .inl hf
  case store a =>
    rw [exec_store] at h
    rcases perform_eq_next h with ⟨p, hp, hr⟩ | hf
    · obtain ⟨v, hv, hr⟩ := (bind_eq_ok _ _ _).1 hr
      obtain ⟨u, hu, hr⟩ := (bind_eq_ok _ _ _).1 hr
      obtain ⟨ha, rfl⟩ := (memWrite_ok _ _ _ _).1 hu
      cases hr
      exact .inr ⟨p, hp, v, (accRead_ok _ _).1 hv, ha, rfl⟩
    · exact .inl hf
  case br a =>
    rw [exec_br] at h
    rcases perform_eq_next h with ⟨p, hp, hr⟩ | hf
    · cases hr; exact .inr ⟨p, hp, rfl⟩
    · exact .inl hf
  case brn a =>
    rw [exec_brn] at h
    rcases perform_eq_next h with ⟨p, hp, hr⟩ | hf
    · obtain ⟨v, hv, hr⟩ := (bind_eq_ok _ _ _).1 hr
      cases hr
      exact .inr ⟨p, hp, v, (accRead_ok _ _).1 hv, rfl⟩
    · exact .inl hf
  case brz a =>
    rw [exec_brz] at h
    rcases perform_eq_next h with ⟨p, hp, hr⟩ | hf
    · obtain ⟨v, hv, hr⟩ := (bind_eq_ok _ _ _).1 hr
      cases hr
      exact .inr ⟨p, hp, v, (accRead_ok _ _).1 hv, rfl⟩
    · exact .inl hf
  case brnf a =>
    rw [exec_brnf] at h
    rcases perform_eq_next h with ⟨p, hp, hr⟩ | hf
    · cases hr; exact .inr ⟨p, hp, rfl⟩
    · exact .inl hf
  case brzf a =>
    rw [exec_brzf] at h
    rcases perform_eq_next h with ⟨p, hp, hr⟩ | hf
    · cases hr; exact .inr ⟨p, hp, rfl⟩
    · exact .inl hf
  case pushi x =>
    rw [exec_pushi] at h
    rcases perform_eq_next h with ⟨p, hp, hr⟩ | hf
    · exact .inr ⟨p, hp, push_finish hr⟩
    · exact .inl hf
  case pushiw x =>
    rw [exec_pushiw] at h
    rcases perform_eq_next h with ⟨p, hp, hr⟩ | hf
    · exact .inr ⟨p, hp, push_finish hr⟩
    · exact .inl hf
  case pushn x =>
    rw [exec_pushn] at h
    rcases perform_eq_next h with ⟨p, hp, hr⟩ | hf
    · obtain ⟨⟨c, src⟩, hc, hr⟩ := (bind_eq_ok _ _ _).1 hr
      exact .inr ⟨p, hp, c, src, hc, push_finish hr⟩
    · exact .inl hf
  case pushnw x =>
    rw [exec_pushnw] at h
    rcases perform_eq_next h with ⟨p, hp, hr⟩ | hf
    · obtain ⟨⟨c, src⟩, hc, hr⟩ := (bind_eq_ok _ _ _).1 hr
      exact .inr ⟨p, hp, c, src, hc, push_finish hr⟩
    · exact .inl hf
  case load x =>
    rw [exec_load] at h
    rcases perform_eq_next h with ⟨p, hp, hr⟩ | hf
    · obtain ⟨⟨c, src⟩, hc, hr⟩ := (bind_eq_ok _ _ _).1 hr
      exact .inr ⟨p, hp, c, src, hc, load_finish hr⟩
    · exact .inl hf
  case ldi x =>
    rw [exec_ldi] at h
    rcases perform_eq_next h with ⟨p, hp, hr⟩ | hf
    · exact .inr ⟨p, hp, load_finish hr⟩
    · exact .inl hf
  case ldiw x =>
    rw [exec_ldiw] at h
    rcases perform_eq_next h with ⟨p, hp, hr⟩ | hf
    · exact .inr ⟨p, hp, load_finish hr⟩
    · exact .inl hf
  case ldn x =>
    rw [exec_ldn] at h
    rcases perform_eq_next h with ⟨p, hp, hr⟩ | hf
    · obtain ⟨⟨c, src⟩, hc, hr⟩ := (bind_eq_ok _ _ _).1 hr
      exact .inr ⟨p, hp, c, src, hc, load_finish hr⟩
    · exact .inl hf
  case ldnw x =>
    rw [exec_ldnw] at h
    rcases perform_eq_next h with ⟨p, hp, hr⟩ | hf
    · obtain ⟨⟨c, src⟩, hc, hr⟩ := (bind_eq_ok _ _ _).1 hr
      exact .inr ⟨p, hp, c, src, hc, load_finish hr⟩
    · exact .inl hf
  case add x =>
    rw [exec_add] at h
    rcases perform_eq_next h with ⟨p, hp, hr⟩ | hf
    · obtain ⟨⟨c, src⟩, hc, hr⟩ := (bind_eq_ok _ _ _).1 hr
      exact .inr ⟨p, hp, c, src, hc, arith_finish hr⟩
    · exact .inl hf
  case addi x =>
    rw [exec_addi] at h
    rcases perform_eq_next h with ⟨p, hp, hr⟩ | hf
    · exact .inr ⟨p, hp, arith_finish hr⟩
    · exact .inl hf
  case addiw x =>
    rw [exec_addiw] at h
    rcases perform_eq_next h with ⟨p, hp, hr⟩ | hf
    · exact .inr ⟨p, hp, arith_finish hr⟩
    · exact .inl hf
  case addn x =>
    rw [exec_addn] at h
    rcases perform_eq_next h with ⟨p, hp, hr⟩ | hf
    · obtain ⟨⟨c, src⟩, hc, hr⟩ := (bind_eq_ok _ _ _).1 hr
      exact .inr ⟨p, hp, c, src, hc, arith_finish hr⟩
    · exact .inl hf
  case addnw x =>
    rw [exec_addnw] at h
    rcases perform_eq_next h with ⟨p, hp, hr⟩ | hf
    · obtain ⟨⟨c, src⟩, hc, hr⟩ := (bind_eq_ok _ _ _).1 hr
      exact .inr ⟨p, hp, c, src, hc, arith_finish hr⟩
    · exact .inl hf
  case sub x =>
    rw [exec_sub] at h
    rcases perform_eq_next h with ⟨p, hp, hr⟩ | hf
    · obtain ⟨⟨c, src⟩, hc, hr⟩ := (bind_eq_ok _ _ _).1 hr
      exact .inr ⟨p, hp, c, src, hc, arith_finish hr⟩
    · exact .inl hf
  case subi x =>
    rw [exec_subi] at h
    rcases perform_eq_next h with ⟨p, hp, hr⟩ | hf
    · exact .inr ⟨p, hp, arith_finish hr⟩
    · exact .inl hf
  case subiw x =>
    rw [exec_subiw] at h
    rcases perform_eq_next h with ⟨p, hp, hr⟩ | hf
    · exact .inr ⟨p, hp, arith_finish hr⟩
    · exact .inl hf
  case subn x =>
    rw [exec_subn] at h
    rcases perform_eq_next h with ⟨p, hp, hr⟩ | hf
    · obtain ⟨⟨c, src⟩, hc, hr⟩ := (bind_eq_ok _ _ _).1 hr
      exact .inr ⟨p, hp, c, src, hc, arith_finish hr⟩
    · exact .inl hf
  case subnw x =>
    rw [exec_subnw] at h
    rcases perform_eq_next h with ⟨p, hp, hr⟩ | hf
    · obtain ⟨⟨c, src⟩, hc, hr⟩ := (bind_eq_ok _ _ _).1 hr
      exact .inr ⟨p, hp, c, src, hc, arith_finish hr⟩
    · exact .inl hf
  case mul x =>
    rw [exec_mul] at h
    rcases perform_eq_next h with ⟨p, hp, hr⟩ | hf
    · obtain ⟨⟨c, src⟩, hc, hr⟩ := (bind_eq_ok _ _ _).1 hr
      exact .inr ⟨p, hp, c, src, hc, arith_finish hr⟩
    · exact .inl hf
  case muli x =>
    rw [exec_muli] at h
    rcases perform_eq_next h with ⟨p, hp, hr⟩ | hf
    · exact .inr ⟨p, hp, arith_finish hr⟩
    · exact .inl hf
  case muliw x =>
    rw [exec_muliw] at h
    rcases perform_eq_next h with ⟨p, hp, hr⟩ | hf
    · exact .inr ⟨p, hp, arith_finish hr⟩
    · exact .inl hf
  case muln x =>
    rw [exec_muln] at h
    rcases perform_eq_next h with ⟨p, hp, hr⟩ | hf
    · obtain ⟨⟨c, src⟩, hc, hr⟩ := (bind_eq_ok _ _ _).1 hr
      exact .inr ⟨p, hp, c, src, hc, arith_finish hr⟩
    · exact .inl hf
  case mulnw x =>
    rw [exec_mulnw] at h
    rcases perform_eq_next h with ⟨p, hp, hr⟩ | hf
    · obtain ⟨⟨c, src⟩, hc, hr⟩ := (bind_eq_ok _ _ _).1 hr
      exact .inr ⟨p, hp, c, src, hc, arith_finish hr⟩
    · exact .inl hf

/-- Every instruction answers a next state. -/
theorem exec_answers (i : Instr) (s : State) : ∃ t, exec i s = .next t := by
  cases i
  case halt => rw [exec_halt]; exact perform_answers _ _
  case inc => rw [exec_inc]; exact perform_answers _ _
  case dec => rw [exec_dec]; exact perform_answers _ _
  case push => rw [exec_push]; exact perform_answers _ _
  case pop => rw [exec_pop]; exact perform_answers _ _
  case load => rw [exec_load]; exact perform_answers _ _
  case store => rw [exec_store]; exact perform_answers _ _
  case add => rw [exec_add]; exact perform_answers _ _
  case sub => rw [exec_sub]; exact perform_answers _ _
  case mul => rw [exec_mul]; exact perform_answers _ _
  case br => rw [exec_br]; exact perform_answers _ _
  case brn => rw [exec_brn]; exact perform_answers _ _
  case brz => rw [exec_brz]; exact perform_answers _ _
  case brnf => rw [exec_brnf]; exact perform_answers _ _
  case brzf => rw [exec_brzf]; exact perform_answers _ _
  case pushi => rw [exec_pushi]; exact perform_answers _ _
  case pushiw => rw [exec_pushiw]; exact perform_answers _ _
  case pushn => rw [exec_pushn]; exact perform_answers _ _
  case pushnw => rw [exec_pushnw]; exact perform_answers _ _
  case ldi => rw [exec_ldi]; exact perform_answers _ _
  case ldiw => rw [exec_ldiw]; exact perform_answers _ _
  case ldn => rw [exec_ldn]; exact perform_answers _ _
  case ldnw => rw [exec_ldnw]; exact perform_answers _ _
  case addi => rw [exec_addi]; exact perform_answers _ _
  case addiw => rw [exec_addiw]; exact perform_answers _ _
  case addn => rw [exec_addn]; exact perform_answers _ _
  case addnw => rw [exec_addnw]; exact perform_answers _ _
  case subi => rw [exec_subi]; exact perform_answers _ _
  case subiw => rw [exec_subiw]; exact perform_answers _ _
  case subn => rw [exec_subn]; exact perform_answers _ _
  case subnw => rw [exec_subnw]; exact perform_answers _ _
  case muli => rw [exec_muli]; exact perform_answers _ _
  case muliw => rw [exec_muliw]; exact perform_answers _ _
  case muln => rw [exec_muln]; exact perform_answers _ _
  case mulnw => rw [exec_mulnw]; exact perform_answers _ _

/-! ## Fetch, decode and the step -/

/-- A word that decodes to a one-word instruction gives it fields within their digits. -/
theorem decodeHead_oneWord {c : CellValue} {i : Instr} (h : decodeHead c = .oneWord i) : i.wellFormed = true ∧ i.wordCount = 1 := by
  have h4 := fieldA4_le c
  have h3 := fieldA3_le c
  have h2 := fieldA2_le c
  unfold decodeHead at h
  split at h
  · unfold decodeLed0 at h
    split at h
    all_goals first
      | cases h; simp [Instr.wellFormed, Instr.wordCount, h3]
      | (split at h <;> cases h; exact ⟨rfl, rfl⟩)
      | cases h
  iterate 8 · cases h; simp [Instr.wellFormed, Instr.wordCount, h4]
  · split at h
    · unfold decodeFlagBranch at h
      split at h <;> cases h <;> simp [Instr.wellFormed, Instr.wordCount, h2]
    · unfold decodeFam9 at h
      split at h
      · rename_i op _ _; cases h; cases op <;> simp [fam9Short, Instr.wellFormed, Instr.wordCount, h2]
      · split at h <;> cases h
      · rename_i op _ _; cases h; cases op <;> simp [fam9Short, Instr.wellFormed, Instr.wordCount, h2]
      · split at h <;> cases h
      · cases h

theorem fam9Word_wellFormed (op : Fam9Op) (b : Bool) (w : CellValue) :
    (fam9Word op b w).wellFormed = true ∧ (fam9Word op b w).wordCount = 2 := by
  cases op <;> cases b <;> exact ⟨rfl, rfl⟩

/-- What fetch and decode can answer (R101, R102). -/
theorem fetchInstr_ok {s : State} {i : Instr} (h : fetchInstr s = .ok i) :
    ∃ p c, s.ip = some p ∧ p < 10000 ∧ s.mem.read p = some c ∧ i.wellFormed = true ∧ p + i.wordCount ≤ 10000 ∧
      (decodeHead c = .oneWord i ∨ ∃ op b w, decodeHead c = .twoWord op b ∧ s.mem.read (p + 1) = some w ∧ i = fam9Word op b w) := by
  obtain ⟨⟨p, c⟩, h1, h2⟩ := (bind_eq_ok _ _ _).1 h
  unfold fetchWord at h1
  split at h1
  · cases h1
  · rename_i q hq
    obtain ⟨oc, h3, h4⟩ := (bind_eq_ok _ _ _).1 h1
    rw [memRead_eq] at h3
    split at h3
    · rename_i hlt
      simp only [Except.ok.injEq] at h3
      subst h3
      split at h4
      · cases h4
      · rename_i c' hc'
        simp only [Except.ok.injEq, Prod.mk.injEq] at h4
        obtain ⟨rfl, rfl⟩ := h4
        dsimp only at h2
        split at h2
        · cases h2
        · rename_i i' hi'
          simp only [Except.ok.injEq] at h2
          subst h2
          obtain ⟨w1, w2⟩ := decodeHead_oneWord hi'
          exact ⟨q, c', hq, hlt, hc', w1, by omega, .inl hi'⟩
        · rename_i op b hd
          obtain ⟨w, hw, h5⟩ := (bind_eq_ok _ _ _).1 h2
          simp only [Except.ok.injEq] at h5
          subst h5
          obtain ⟨hp1, hp2⟩ := (dataRead_ok _ _ _).1 hw
          obtain ⟨w1, w2⟩ := fam9Word_wellFormed op b w
          exact ⟨q, c', hq, hlt, hc', w1, by omega, .inr ⟨op, b, w, hd, hp2, rfl⟩⟩
    · cases h3

/-- What a step can answer (R107). -/
theorem step_next {s t : State} (h : step s = .next t) :
    (∃ g, guardOf s = some g ∧ t = s.report (.refused g)) ∨
    (guardOf s = none ∧ ∃ f, fetchInstr s.beginStep = .error f ∧ t = s.beginStep.takeFault f) ∨
    (guardOf s = none ∧ ∃ i, fetchInstr s.beginStep = .ok i ∧ exec i s.beginStep = .next t) := by
  unfold step at h
  split at h
  · cases h; exact .inl ⟨_, ‹_›, rfl⟩
  · split at h
    · cases h; exact .inr (.inl ⟨‹_›, _, ‹_›, rfl⟩)
    · exact .inr (.inr ⟨‹_›, _, ‹_›, h⟩)

/-- Both guards pass exactly in a runnable state (R100). -/
theorem guardOf_eq_none (s : State) : guardOf s = none ↔ s.Runnable := by
  unfold guardOf State.Runnable
  cases s.loaded <;> cases s.halted <;> simp

end Sys2Proof.Machine
end

