-- ==== Sys2Proof/Laws/PerInstr.lean ====
section
/-!
SUPPORT. Laws stated once per instruction. Family `WordCount`: the encoding of an instruction has as many words as the instruction, and its
first word alone tells how many (spec/30_encoding.md R70, R73).
-/

namespace Sys2Proof.Laws.WordCount

/-- As many words as the instruction says, two exactly when the first word is `9`, `1` to `5`, `1` or `3` (R73). -/
def Statement (i : Instr) : Prop :=
  (encode i).length = i.wordCount ∧
  ∀ c, (encode i).head? = some c →
    (i.wordCount = 2 ↔ c.d0.val = 9 ∧ (1 ≤ c.d1.val ∧ c.d1.val ≤ 5) ∧ (c.d2.val = 1 ∨ c.d2.val = 3))

theorem halt : Statement .halt := ⟨rfl, fun _ h => by cases h; decide⟩
theorem inc (a : Nat) : Statement (.inc a) := ⟨rfl, fun _ h => by cases h; simp [Config.radix, Instr.wordCount, wordA3]⟩
theorem dec (a : Nat) : Statement (.dec a) := ⟨rfl, fun _ h => by cases h; simp [Config.radix, Instr.wordCount, wordA3]⟩
theorem push : Statement .push := ⟨rfl, fun _ h => by cases h; decide⟩
theorem pop : Statement .pop := ⟨rfl, fun _ h => by cases h; decide⟩
theorem load (a : Nat) : Statement (.load a) := ⟨rfl, fun _ h => by cases h; simp [Config.radix, Instr.wordCount, wordA4]⟩
theorem store (a : Nat) : Statement (.store a) := ⟨rfl, fun _ h => by cases h; simp [Config.radix, Instr.wordCount, wordA4]⟩
theorem add (a : Nat) : Statement (.add a) := ⟨rfl, fun _ h => by cases h; simp [Config.radix, Instr.wordCount, wordA4]⟩
theorem sub (a : Nat) : Statement (.sub a) := ⟨rfl, fun _ h => by cases h; simp [Config.radix, Instr.wordCount, wordA4]⟩
theorem mul (a : Nat) : Statement (.mul a) := ⟨rfl, fun _ h => by cases h; simp [Config.radix, Instr.wordCount, wordA4]⟩
theorem br (a : Nat) : Statement (.br a) := ⟨rfl, fun _ h => by cases h; simp [Config.radix, Instr.wordCount, wordA4]⟩
theorem brn (a : Nat) : Statement (.brn a) := ⟨rfl, fun _ h => by cases h; simp [Config.radix, Instr.wordCount, wordA4]⟩
theorem brz (a : Nat) : Statement (.brz a) := ⟨rfl, fun _ h => by cases h; simp [Config.radix, Instr.wordCount, wordA4]⟩
theorem brnf (a : Nat) : Statement (.brnf a) := ⟨rfl, fun _ h => by cases h; simp [Config.radix, Instr.wordCount, wordA2]⟩
theorem brzf (a : Nat) : Statement (.brzf a) := ⟨rfl, fun _ h => by cases h; simp [Config.radix, Instr.wordCount, wordA2]⟩
theorem pushi (xx : Nat) : Statement (.pushi xx) := ⟨rfl, fun _ h => by cases h; simp [Config.radix, Instr.wordCount, fam9Instr, fam9OpCode, fam9ModeCode]⟩
theorem pushiw (w : CellValue) : Statement (.pushiw w) := ⟨rfl, fun _ h => by cases h; simp [Config.radix, Instr.wordCount, fam9Instr, fam9OpCode, fam9ModeCode]⟩
theorem pushn (xx : Nat) : Statement (.pushn xx) := ⟨rfl, fun _ h => by cases h; simp [Config.radix, Instr.wordCount, fam9Instr, fam9OpCode, fam9ModeCode]⟩
theorem pushnw (w : CellValue) : Statement (.pushnw w) := ⟨rfl, fun _ h => by cases h; simp [Config.radix, Instr.wordCount, fam9Instr, fam9OpCode, fam9ModeCode]⟩
theorem ldi (xx : Nat) : Statement (.ldi xx) := ⟨rfl, fun _ h => by cases h; simp [Config.radix, Instr.wordCount, fam9Instr, fam9OpCode, fam9ModeCode]⟩
theorem ldiw (w : CellValue) : Statement (.ldiw w) := ⟨rfl, fun _ h => by cases h; simp [Config.radix, Instr.wordCount, fam9Instr, fam9OpCode, fam9ModeCode]⟩
theorem ldn (xx : Nat) : Statement (.ldn xx) := ⟨rfl, fun _ h => by cases h; simp [Config.radix, Instr.wordCount, fam9Instr, fam9OpCode, fam9ModeCode]⟩
theorem ldnw (w : CellValue) : Statement (.ldnw w) := ⟨rfl, fun _ h => by cases h; simp [Config.radix, Instr.wordCount, fam9Instr, fam9OpCode, fam9ModeCode]⟩
theorem addi (xx : Nat) : Statement (.addi xx) := ⟨rfl, fun _ h => by cases h; simp [Config.radix, Instr.wordCount, fam9Instr, fam9OpCode, fam9ModeCode]⟩
theorem addiw (w : CellValue) : Statement (.addiw w) := ⟨rfl, fun _ h => by cases h; simp [Config.radix, Instr.wordCount, fam9Instr, fam9OpCode, fam9ModeCode]⟩
theorem addn (xx : Nat) : Statement (.addn xx) := ⟨rfl, fun _ h => by cases h; simp [Config.radix, Instr.wordCount, fam9Instr, fam9OpCode, fam9ModeCode]⟩
theorem addnw (w : CellValue) : Statement (.addnw w) := ⟨rfl, fun _ h => by cases h; simp [Config.radix, Instr.wordCount, fam9Instr, fam9OpCode, fam9ModeCode]⟩
theorem subi (xx : Nat) : Statement (.subi xx) := ⟨rfl, fun _ h => by cases h; simp [Config.radix, Instr.wordCount, fam9Instr, fam9OpCode, fam9ModeCode]⟩
theorem subiw (w : CellValue) : Statement (.subiw w) := ⟨rfl, fun _ h => by cases h; simp [Config.radix, Instr.wordCount, fam9Instr, fam9OpCode, fam9ModeCode]⟩
theorem subn (xx : Nat) : Statement (.subn xx) := ⟨rfl, fun _ h => by cases h; simp [Config.radix, Instr.wordCount, fam9Instr, fam9OpCode, fam9ModeCode]⟩
theorem subnw (w : CellValue) : Statement (.subnw w) := ⟨rfl, fun _ h => by cases h; simp [Config.radix, Instr.wordCount, fam9Instr, fam9OpCode, fam9ModeCode]⟩
theorem muli (xx : Nat) : Statement (.muli xx) := ⟨rfl, fun _ h => by cases h; simp [Config.radix, Instr.wordCount, fam9Instr, fam9OpCode, fam9ModeCode]⟩
theorem muliw (w : CellValue) : Statement (.muliw w) := ⟨rfl, fun _ h => by cases h; simp [Config.radix, Instr.wordCount, fam9Instr, fam9OpCode, fam9ModeCode]⟩
theorem muln (xx : Nat) : Statement (.muln xx) := ⟨rfl, fun _ h => by cases h; simp [Config.radix, Instr.wordCount, fam9Instr, fam9OpCode, fam9ModeCode]⟩
theorem mulnw (w : CellValue) : Statement (.mulnw w) := ⟨rfl, fun _ h => by cases h; simp [Config.radix, Instr.wordCount, fam9Instr, fam9OpCode, fam9ModeCode]⟩

end Sys2Proof.Laws.WordCount
end

