-- ==== Sys2Proof/Tests/Slice0.lean ====
section
/-!
SUPPORT. Tests. Expected results come from the vectors of spec/95_test_vectors.md, whose ids the comments name, and words are written out digit
by digit from the encodings of spec/30_encoding.md. The last part has, for every obligation with hypotheses, a witness that meets them.
-/

namespace Sys2Proof.Tests

open Sys2Proof Sys2Proof.Machine

/-! ## Ill-formed terms are refused (R72) -/

theorem test_illFormed_a3 :
    Instr.wellFormed (.inc 1000) = false ∧ Instr.wellFormed (.inc 999) = true ∧
    Instr.wellFormed (.dec 1000) = false ∧ Instr.wellFormed (.dec 999) = true := by decide

theorem test_illFormed_a4 :
    Instr.wellFormed (.load 10000) = false ∧ Instr.wellFormed (.load 9999) = true ∧
    Instr.wellFormed (.store 10000) = false ∧ Instr.wellFormed (.store 9999) = true ∧
    Instr.wellFormed (.add 10000) = false ∧ Instr.wellFormed (.add 9999) = true ∧
    Instr.wellFormed (.sub 10000) = false ∧ Instr.wellFormed (.sub 9999) = true ∧
    Instr.wellFormed (.mul 10000) = false ∧ Instr.wellFormed (.mul 9999) = true ∧
    Instr.wellFormed (.br 10000) = false ∧ Instr.wellFormed (.br 9999) = true ∧
    Instr.wellFormed (.brn 10000) = false ∧ Instr.wellFormed (.brn 9999) = true ∧
    Instr.wellFormed (.brz 10000) = false ∧ Instr.wellFormed (.brz 9999) = true := by decide

theorem test_illFormed_a2 :
    Instr.wellFormed (.brnf 100) = false ∧ Instr.wellFormed (.brnf 99) = true ∧
    Instr.wellFormed (.brzf 100) = false ∧ Instr.wellFormed (.brzf 99) = true := by decide

theorem test_illFormed_short :
    Instr.wellFormed (.pushi 100) = false ∧ Instr.wellFormed (.pushi 99) = true ∧
    Instr.wellFormed (.pushn 100) = false ∧ Instr.wellFormed (.pushn 99) = true ∧
    Instr.wellFormed (.ldi 100) = false ∧ Instr.wellFormed (.ldi 99) = true ∧
    Instr.wellFormed (.ldn 100) = false ∧ Instr.wellFormed (.ldn 99) = true ∧
    Instr.wellFormed (.addi 100) = false ∧ Instr.wellFormed (.addi 99) = true ∧
    Instr.wellFormed (.addn 100) = false ∧ Instr.wellFormed (.addn 99) = true ∧
    Instr.wellFormed (.subi 100) = false ∧ Instr.wellFormed (.subi 99) = true ∧
    Instr.wellFormed (.subn 100) = false ∧ Instr.wellFormed (.subn 99) = true ∧
    Instr.wellFormed (.muli 100) = false ∧ Instr.wellFormed (.muli 99) = true ∧
    Instr.wellFormed (.muln 100) = false ∧ Instr.wellFormed (.muln 99) = true := by decide

/-! ## Decoding: the table of section 2.1, and one word for each remaining form (R76, R79) -/

theorem test_decode_zAndA3 :
    decodeHead ⟨0, 0, 0, 0, 0⟩ = .oneWord .halt ∧
    decodeHead ⟨0, 1, 0, 0, 0⟩ = .oneWord (.inc 0) ∧
    decodeHead ⟨0, 1, 9, 9, 9⟩ = .oneWord (.inc 999) ∧
    decodeHead ⟨0, 2, 1, 0, 1⟩ = .oneWord (.dec 101) ∧
    decodeHead ⟨0, 3, 0, 0, 0⟩ = .oneWord .push ∧
    decodeHead ⟨0, 4, 0, 0, 0⟩ = .oneWord .pop := by decide

theorem test_decode_a4 :
    decodeHead ⟨1, 0, 0, 0, 0⟩ = .oneWord (.load 0) ∧
    decodeHead ⟨1, 9, 9, 9, 9⟩ = .oneWord (.load 9999) ∧
    decodeHead ⟨2, 9, 9, 9, 8⟩ = .oneWord (.store 9998) ∧
    decodeHead ⟨3, 0, 1, 0, 1⟩ = .oneWord (.add 101) ∧
    decodeHead ⟨4, 0, 2, 0, 0⟩ = .oneWord (.sub 200) ∧
    decodeHead ⟨5, 0, 0, 5, 0⟩ = .oneWord (.mul 50) ∧
    decodeHead ⟨6, 0, 0, 0, 0⟩ = .oneWord (.br 0) ∧
    decodeHead ⟨7, 0, 0, 0, 4⟩ = .oneWord (.brn 4) ∧
    decodeHead ⟨8, 0, 0, 0, 5⟩ = .oneWord (.brz 5) ∧
    decodeHead ⟨8, 9, 9, 9, 9⟩ = .oneWord (.brz 9999) := by decide

theorem test_decode_a2 :
    decodeHead ⟨9, 0, 7, 0, 0⟩ = .oneWord (.brnf 0) ∧
    decodeHead ⟨9, 0, 7, 9, 9⟩ = .oneWord (.brnf 99) ∧
    decodeHead ⟨9, 0, 8, 0, 7⟩ = .oneWord (.brzf 7) ∧
    decodeHead ⟨9, 0, 8, 0, 0⟩ = .oneWord (.brzf 0) := by decide

theorem test_decode_short :
    decodeHead ⟨9, 1, 0, 0, 0⟩ = .oneWord (.pushi 0) ∧
    decodeHead ⟨9, 1, 0, 9, 9⟩ = .oneWord (.pushi 99) ∧
    decodeHead ⟨9, 1, 2, 2, 0⟩ = .oneWord (.pushn 20) ∧
    decodeHead ⟨9, 2, 0, 4, 2⟩ = .oneWord (.ldi 42) ∧
    decodeHead ⟨9, 2, 2, 2, 0⟩ = .oneWord (.ldn 20) ∧
    decodeHead ⟨9, 3, 0, 0, 5⟩ = .oneWord (.addi 5) ∧
    decodeHead ⟨9, 3, 2, 2, 0⟩ = .oneWord (.addn 20) ∧
    decodeHead ⟨9, 4, 0, 0, 3⟩ = .oneWord (.subi 3) ∧
    decodeHead ⟨9, 4, 2, 2, 0⟩ = .oneWord (.subn 20) ∧
    decodeHead ⟨9, 5, 0, 0, 7⟩ = .oneWord (.muli 7) ∧
    decodeHead ⟨9, 5, 2, 2, 1⟩ = .oneWord (.muln 21) := by decide

theorem test_decode_word :
    decodeWords [⟨9, 1, 1, 0, 0⟩, ⟨1, 0, 0, 1, 2⟩] = .ok (.pushiw ⟨1, 0, 0, 1, 2⟩, []) ∧
    decodeWords [⟨9, 1, 3, 0, 0⟩, ⟨1, 0, 0, 1, 2⟩] = .ok (.pushnw ⟨1, 0, 0, 1, 2⟩, []) ∧
    decodeWords [⟨9, 2, 1, 0, 0⟩, ⟨1, 0, 0, 1, 2⟩] = .ok (.ldiw ⟨1, 0, 0, 1, 2⟩, []) ∧
    decodeWords [⟨9, 2, 3, 0, 0⟩, ⟨1, 0, 0, 1, 2⟩] = .ok (.ldnw ⟨1, 0, 0, 1, 2⟩, []) ∧
    decodeWords [⟨9, 3, 1, 0, 0⟩, ⟨1, 0, 0, 1, 2⟩] = .ok (.addiw ⟨1, 0, 0, 1, 2⟩, []) ∧
    decodeWords [⟨9, 3, 3, 0, 0⟩, ⟨1, 0, 0, 1, 2⟩] = .ok (.addnw ⟨1, 0, 0, 1, 2⟩, []) ∧
    decodeWords [⟨9, 4, 1, 0, 0⟩, ⟨1, 0, 0, 1, 2⟩] = .ok (.subiw ⟨1, 0, 0, 1, 2⟩, []) ∧
    decodeWords [⟨9, 4, 3, 0, 0⟩, ⟨1, 0, 0, 1, 2⟩] = .ok (.subnw ⟨1, 0, 0, 1, 2⟩, []) ∧
    decodeWords [⟨9, 5, 1, 0, 0⟩, ⟨1, 0, 0, 1, 2⟩] = .ok (.muliw ⟨1, 0, 0, 1, 2⟩, []) ∧
    decodeWords [⟨9, 5, 3, 0, 0⟩, ⟨1, 0, 0, 1, 2⟩] = .ok (.mulnw ⟨1, 0, 0, 1, 2⟩, []) := by decide

theorem test_encode :
    encode (.inc 5) = [⟨0, 1, 0, 0, 5⟩] ∧
    encode (.load 9999) = [⟨1, 9, 9, 9, 9⟩] ∧
    encode (.brnf 9) = [⟨9, 0, 7, 0, 9⟩] ∧
    encode (.ldi 42) = [⟨9, 2, 0, 4, 2⟩] ∧
    encode (.subnw ⟨0, 0, 0, 2, 1⟩) = [⟨9, 4, 3, 0, 0⟩, ⟨0, 0, 0, 2, 1⟩] := by decide

theorem test_decode_unknown :
    decodeHead ⟨0, 0, 0, 0, 1⟩ = .unknown ∧
    decodeHead ⟨0, 0, 1, 2, 3⟩ = .unknown ∧
    decodeHead ⟨0, 0, 9, 9, 9⟩ = .unknown ∧
    decodeHead ⟨0, 3, 0, 0, 1⟩ = .unknown ∧
    decodeHead ⟨0, 3, 0, 0, 7⟩ = .unknown ∧
    decodeHead ⟨0, 4, 0, 0, 1⟩ = .unknown ∧
    decodeHead ⟨0, 5, 0, 0, 0⟩ = .unknown ∧
    decodeHead ⟨0, 9, 9, 9, 9⟩ = .unknown ∧
    decodeHead ⟨9, 0, 0, 0, 0⟩ = .unknown ∧
    decodeHead ⟨9, 0, 6, 9, 9⟩ = .unknown ∧
    decodeHead ⟨9, 0, 9, 0, 0⟩ = .unknown ∧
    decodeHead ⟨9, 1, 1, 0, 1⟩ = .unknown ∧
    decodeHead ⟨9, 1, 3, 0, 1⟩ = .unknown ∧
    decodeHead ⟨9, 1, 4, 0, 0⟩ = .unknown ∧
    decodeHead ⟨9, 1, 9, 9, 9⟩ = .unknown ∧
    decodeHead ⟨9, 5, 3, 9, 9⟩ = .unknown ∧
    decodeHead ⟨9, 6, 0, 0, 0⟩ = .unknown ∧
    decodeHead ⟨9, 9, 9, 9, 9⟩ = .unknown := by decide

/-- K1 to K9, K12. -/
theorem test_codec :
    decodeNum ⟨0, 0, 0, 4, 2⟩ = 42 ∧ decodeNum ⟨1, 0, 0, 0, 5⟩ = -5 ∧ decodeNum ⟨1, 0, 0, 0, 0⟩ = 0 ∧ decodeNum ⟨1, 9, 9, 9, 9⟩ = -9999 ∧
    decodeNum ⟨0, 9, 9, 9, 9⟩ = 9999 ∧ encodeNum 0 = ⟨0, 0, 0, 0, 0⟩ ∧ encodeNum (-1) = ⟨1, 0, 0, 0, 1⟩ ∧
    encodeNum (-9999) = ⟨1, 9, 9, 9, 9⟩ ∧ encodeNum 9999 = ⟨0, 9, 9, 9, 9⟩ ∧
    zext5 7 = ⟨0, 0, 0, 0, 7⟩ ∧ zext5 99 = ⟨0, 0, 0, 9, 9⟩ ∧ zext5 0 = ⟨0, 0, 0, 0, 0⟩ := by decide

/-- K11, K13 to K16. -/
theorem test_numAddr :
    num ⟨2, 0, 0, 0, 0⟩ (.mem 5) = .error (.invalidWord (.mem 5)) ∧ num ⟨9, 9, 9, 9, 9⟩ .acc = .error (.invalidWord .acc) ∧
    addr ⟨0, 0, 1, 2, 3⟩ .acc = .ok 123 ∧ addr ⟨1, 0, 0, 0, 0⟩ .acc = .ok 0 ∧
    addr ⟨1, 0, 0, 0, 1⟩ .acc = .error (.addressOutOfRange (-1)) ∧ addr ⟨0, 9, 9, 9, 9⟩ .acc = .ok 9999 := by
  refine ⟨?_, ?_, ?_, ?_, ?_, ?_⟩ <;> rfl

/-- K17 to K20. -/
theorem test_fields :
    fieldA3 ⟨0, 1, 2, 3, 4⟩ = 234 ∧ fieldA4 ⟨1, 2, 3, 4, 5⟩ = 2345 ∧ fieldA2 ⟨9, 0, 7, 1, 2⟩ = 12 ∧
    fam9OpDigit ⟨9, 3, 2, 4, 5⟩ = 3 ∧ fam9ModeDigit ⟨9, 3, 2, 4, 5⟩ = 2 ∧ fieldA2 ⟨9, 3, 2, 4, 5⟩ = 45 := by decide

/-! ## The host's numbering of a table row (log 25) -/

theorem test_tableWord :
    decodeTableWord 24 30101 = some (.add 101) ∧ decodeTableWord 24 91100 = some (.pushiw ⟨0, 0, 0, 0, 0⟩) ∧
    decodeTableWord 48 (94300 + 2 ^ 24 * 10021) = some (.subnw ⟨1, 0, 0, 2, 1⟩) ∧ decodeTableWord 24 100000 = none ∧
    decodeTableWord 24 3007 = none := by decide

/-! ## One step -/

/-- A loaded machine at `ip` with this accumulator and these cells. -/
def ready (ip : Nat) (acc : Option CellValue) (cells : Memory) : State :=
  { State.reset with acc := acc, ip := some ip, loaded := true, halted := .no, mem := cells }

/-- The state one step answers. -/
def after (s : State) : State :=
  match step s with
  | .next t => t
  | .fault _ => s
  | .refused _ => s

/-- After a placed word the next step runs it (HALT here), whatever stood before. -/
theorem test_withFetchWord :
    (after (State.reset.withFetchWord 24 0)).status = .haltExecuted ∧
    (after (State.reset.withFetchWord 24 92042)).acc = some ⟨0, 0, 0, 4, 2⟩ := by decide

/-- E5. -/
theorem test_halt :
    let t := after ({ ready 0 (some ⟨0, 0, 0, 4, 2⟩) [(0, ⟨0, 0, 0, 0, 0⟩)] with zero := true })
    t.status = .haltExecuted ∧ t.halted = .yes ∧ t.acc = some ⟨0, 0, 0, 4, 2⟩ ∧ t.ip = some 0 ∧ t.zero = true ∧ t.negative = false ∧ t.sp = 9999 := by decide

/-- I2. -/
theorem test_inc_zero :
    let t := after (ready 0 none [(0, ⟨0, 1, 0, 0, 5⟩), (5, ⟨1, 0, 0, 0, 1⟩)])
    t.mem.read 5 = some ⟨0, 0, 0, 0, 0⟩ ∧ t.zero = true ∧ t.negative = false ∧ t.ip = some 1 := by decide

/-- I8. -/
theorem test_inc_self :
    let t := after (ready 5 none [(5, ⟨0, 1, 0, 0, 5⟩)])
    t.mem.read 5 = some ⟨0, 1, 0, 0, 6⟩ ∧ t.zero = false ∧ t.negative = false ∧ t.ip = some 6 := by decide

/-- I10. -/
theorem test_dec_negative :
    let t := after (ready 0 none [(0, ⟨0, 2, 0, 0, 5⟩), (5, ⟨0, 0, 0, 0, 0⟩)])
    t.mem.read 5 = some ⟨1, 0, 0, 0, 1⟩ ∧ t.zero = false ∧ t.negative = true ∧ t.ip = some 1 := by decide

/-- I12. -/
theorem test_dec_overflow :
    let t := after ({ ready 0 none [(0, ⟨0, 2, 0, 0, 5⟩), (5, ⟨1, 9, 9, 9, 9⟩)] with negative := true })
    t.status = .fault (.arithmeticOverflow (-10000)) ∧ t.mem.read 5 = some ⟨1, 9, 9, 9, 9⟩ ∧ t.zero = false ∧ t.negative = true ∧ t.ip = some 0 ∧ t.halted = .yes := by decide

/-- S4. -/
theorem test_push_last :
    let t := after ({ ready 0 (some ⟨6, 0, 0, 0, 0⟩) [(0, ⟨0, 3, 0, 0, 0⟩)] with sp := 1 })
    t.mem.read 0 = some ⟨6, 0, 0, 0, 0⟩ ∧ t.sp = 0 ∧ t.ip = some 1 := by decide

/-- S2. -/
theorem test_push_overflow :
    let t := after ({ ready 0 (some ⟨0, 0, 0, 0, 7⟩) [(0, ⟨0, 3, 0, 0, 0⟩)] with sp := 0 })
    t.status = .fault (.stackOverflow 0) ∧ t.mem.read 0 = some ⟨0, 3, 0, 0, 0⟩ ∧ t.sp = 0 := by decide

/-- S5. -/
theorem test_pop_last :
    let t := after ({ ready 0 (some ⟨0, 0, 0, 0, 1⟩) [(0, ⟨0, 4, 0, 0, 0⟩), (9998, ⟨1, 0, 0, 1, 2⟩)] with sp := 9998 })
    t.acc = some ⟨1, 0, 0, 1, 2⟩ ∧ t.sp = 9999 ∧ t.mem.read 9998 = some ⟨1, 0, 0, 1, 2⟩ ∧ t.ip = some 1 := by decide

/-- S7. -/
theorem test_pop_underflow :
    let t := after (ready 0 none [(0, ⟨0, 4, 0, 0, 0⟩)])
    t.status = .fault (.stackUnderflow 9999) ∧ t.acc = none ∧ t.sp = 9999 := by decide

/-- L2. -/
theorem test_load :
    let t := after (ready 0 none [(0, ⟨1, 0, 0, 0, 5⟩), (5, ⟨1, 0, 0, 0, 0⟩)])
    t.acc = some ⟨1, 0, 0, 0, 0⟩ ∧ t.ip = some 1 ∧ t.zero = false ∧ t.negative = false := by decide

/-- L4. -/
theorem test_load_filler :
    let t := after (ready 0 none [(0, ⟨1, 0, 0, 0, 5⟩)])
    t.status = .fault (.invalidWord (.mem 5)) ∧ t.acc = none := by decide

/-- L7. -/
theorem test_store :
    let t := after (ready 4 (some ⟨1, 0, 0, 1, 2⟩) [(4, ⟨2, 0, 0, 5, 0⟩)])
    t.mem.read 50 = some ⟨1, 0, 0, 1, 2⟩ ∧ t.acc = some ⟨1, 0, 0, 1, 2⟩ ∧ t.ip = some 5 := by decide

/-- L9. -/
theorem test_store_self :
    let t := after (ready 4 (some ⟨0, 0, 0, 0, 0⟩) [(4, ⟨2, 0, 0, 0, 4⟩)])
    t.mem.read 4 = some ⟨0, 0, 0, 0, 0⟩ ∧ t.ip = some 5 := by decide

/-- A4. -/
theorem test_add_zero :
    let t := after ({ ready 0 (some ⟨0, 9, 9, 9, 9⟩) [(0, ⟨3, 0, 1, 0, 1⟩), (101, ⟨1, 9, 9, 9, 9⟩)] with negative := true })
    t.acc = some ⟨0, 0, 0, 0, 0⟩ ∧ t.zero = true ∧ t.negative = false := by decide

/-- A8. -/
theorem test_add_readFirst :
    let t := after (ready 0 none [(0, ⟨3, 0, 1, 0, 1⟩)])
    t.status = .fault (.invalidWord (.mem 101)) := by decide

/-- A13. -/
theorem test_sub :
    let t := after (ready 0 (some ⟨0, 0, 0, 0, 5⟩) [(0, ⟨4, 0, 2, 0, 0⟩), (200, ⟨0, 0, 0, 0, 7⟩)])
    t.acc = some ⟨1, 0, 0, 0, 2⟩ ∧ t.zero = false ∧ t.negative = true ∧ t.ip = some 1 := by decide

/-- A15. -/
theorem test_sub_overflow :
    let t := after (ready 0 (some ⟨1, 9, 9, 9, 9⟩) [(0, ⟨4, 0, 2, 0, 0⟩), (200, ⟨0, 0, 0, 0, 1⟩)])
    t.status = .fault (.arithmeticOverflow (-10000)) ∧ t.acc = some ⟨1, 9, 9, 9, 9⟩ := by decide

/-- A18. -/
theorem test_mul :
    let t := after (ready 0 (some ⟨0, 0, 0, 0, 7⟩) [(0, ⟨5, 0, 0, 5, 0⟩), (50, ⟨1, 0, 0, 1, 2⟩)])
    t.acc = some ⟨1, 0, 0, 8, 4⟩ ∧ t.zero = false ∧ t.negative = true := by decide

/-- A24. -/
theorem test_mul_overflow :
    let t := after (ready 0 (some ⟨1, 9, 9, 9, 9⟩) [(0, ⟨5, 0, 0, 5, 0⟩), (50, ⟨0, 9, 9, 9, 9⟩)])
    t.status = .fault (.arithmeticOverflow (-99980001)) := by decide

/-- B1. -/
theorem test_br :
    let t := after (ready 5 none [(5, ⟨6, 0, 0, 0, 0⟩)])
    t.ip = some 0 ∧ t.acc = none := by decide

/-- B21. -/
theorem test_br_lastCell :
    let t := after (ready 9999 none [(9999, ⟨6, 9, 9, 9, 9⟩)])
    t.ip = some 9999 := by decide

/-- B5. -/
theorem test_brn_negativeZero :
    let t := after (ready 5 (some ⟨1, 0, 0, 0, 0⟩) [(5, ⟨7, 0, 0, 0, 4⟩)])
    t.ip = some 4 := by decide

/-- B6. -/
theorem test_brn_notMarker :
    let t := after (ready 5 (some ⟨7, 0, 0, 0, 4⟩) [(5, ⟨7, 0, 0, 0, 4⟩)])
    t.ip = some 6 := by decide

/-- B12. -/
theorem test_brz_anyLead :
    let t := after (ready 3 (some ⟨6, 0, 0, 0, 0⟩) [(3, ⟨8, 0, 0, 0, 5⟩)])
    t.ip = some 5 := by decide

/-- B14. -/
theorem test_brz_flagIgnored :
    let t := after ({ ready 3 (some ⟨0, 0, 0, 0, 5⟩) [(3, ⟨8, 0, 0, 0, 5⟩)] with zero := true })
    t.ip = some 4 := by decide

/-- B15. -/
theorem test_brnf :
    let t := after ({ ready 7 none [(7, ⟨9, 0, 7, 0, 9⟩)] with negative := true })
    t.ip = some 9 := by decide

/-- B17. -/
theorem test_brnf_not :
    let t := after ({ ready 7 (some ⟨1, 0, 0, 0, 5⟩) [(7, ⟨9, 0, 7, 0, 9⟩)] with zero := true })
    t.ip = some 8 := by decide

/-- B18. -/
theorem test_brzf :
    let t := after ({ ready 4 none [(4, ⟨9, 0, 8, 0, 7⟩)] with zero := true })
    t.ip = some 7 := by decide

/-- B19. -/
theorem test_brzf_not :
    let t := after (ready 4 none [(4, ⟨9, 0, 8, 0, 7⟩)])
    t.ip = some 5 := by decide

/-- N1. -/
theorem test_pushi :
    let t := after (ready 100 none [(100, ⟨9, 1, 0, 0, 7⟩)])
    t.mem.read 9998 = some ⟨0, 0, 0, 0, 7⟩ ∧ t.sp = 9998 ∧ t.ip = some 101 ∧ t.acc = none := by decide

/-- N2. -/
theorem test_pushi_overflow :
    let t := after ({ ready 100 none [(100, ⟨9, 1, 0, 0, 0⟩)] with sp := 0 })
    t.status = .fault (.stackOverflow 0) := by decide

/-- N3. -/
theorem test_pushiw :
    let t := after ({ ready 100 none [(100, ⟨9, 1, 1, 0, 0⟩), (101, ⟨1, 0, 0, 1, 2⟩)] with sp := 9998 })
    t.mem.read 9997 = some ⟨1, 0, 0, 1, 2⟩ ∧ t.sp = 9997 ∧ t.ip = some 102 := by decide

/-- N5. -/
theorem test_pushiw_lastCell :
    let t := after (ready 9999 none [(9999, ⟨9, 1, 1, 0, 0⟩)])
    t.status = .fault (.addressOutOfRange 10000) ∧ t.ip = some 9999 := by decide

/-- N7. -/
theorem test_pushn :
    let t := after (ready 100 none [(20, ⟨0, 0, 0, 3, 0⟩), (21, ⟨0, 0, 0, 3, 1⟩), (30, ⟨0, 0, 0, 0, 9⟩), (31, ⟨1, 0, 0, 0, 9⟩), (100, ⟨9, 1, 2, 2, 0⟩)])
    t.mem.read 9998 = some ⟨0, 0, 0, 0, 9⟩ ∧ t.sp = 9998 ∧ t.ip = some 101 := by decide

/-- N8. -/
theorem test_pushnw :
    let t := after (ready 100 none [(20, ⟨0, 0, 0, 3, 0⟩), (21, ⟨0, 0, 0, 3, 1⟩), (30, ⟨0, 0, 0, 0, 9⟩), (31, ⟨1, 0, 0, 0, 9⟩), (100, ⟨9, 1, 3, 0, 0⟩), (101, ⟨0, 0, 0, 2, 1⟩)])
    t.mem.read 9998 = some ⟨1, 0, 0, 0, 9⟩ ∧ t.sp = 9998 ∧ t.ip = some 102 := by decide

/-- N10. -/
theorem test_ldi :
    let t := after ({ ready 100 (some ⟨1, 9, 9, 9, 9⟩) [(100, ⟨9, 2, 0, 9, 9⟩)] with zero := true })
    t.acc = some ⟨0, 0, 0, 9, 9⟩ ∧ t.zero = true ∧ t.negative = false := by decide

/-- N12. -/
theorem test_ldiw :
    let t := after (ready 100 none [(100, ⟨9, 2, 1, 0, 0⟩), (101, ⟨1, 0, 0, 0, 0⟩)])
    t.acc = some ⟨1, 0, 0, 0, 0⟩ ∧ t.ip = some 102 := by decide

/-- N18. -/
theorem test_ldn :
    let t := after (ready 100 none [(0, ⟨0, 0, 0, 7, 7⟩), (22, ⟨1, 0, 0, 0, 0⟩), (100, ⟨9, 2, 2, 2, 2⟩)])
    t.acc = some ⟨0, 0, 0, 7, 7⟩ ∧ t.ip = some 101 := by decide

/-- N17. -/
theorem test_ldn_negative :
    let t := after (ready 100 none [(22, ⟨1, 0, 0, 0, 5⟩), (100, ⟨9, 2, 2, 2, 2⟩)])
    t.status = .fault (.addressOutOfRange (-5)) := by decide

/-- N26. -/
theorem test_ldnw :
    let t := after (ready 100 none [(20, ⟨0, 0, 0, 3, 0⟩), (100, ⟨9, 2, 3, 0, 0⟩), (101, ⟨0, 9, 9, 9, 9⟩), (9999, ⟨0, 0, 0, 2, 0⟩)])
    t.acc = some ⟨0, 0, 0, 3, 0⟩ ∧ t.ip = some 102 := by decide

/-- N24. -/
theorem test_ldnw_operand :
    let t := after (ready 100 none [(100, ⟨9, 2, 3, 0, 0⟩), (101, ⟨6, 0, 0, 0, 0⟩)])
    t.status = .fault (.invalidWord (.mem 101)) := by decide

/-- N27. -/
theorem test_addi :
    let t := after (ready 100 (some ⟨1, 0, 0, 0, 5⟩) [(100, ⟨9, 3, 0, 0, 5⟩)])
    t.acc = some ⟨0, 0, 0, 0, 0⟩ ∧ t.zero = true ∧ t.negative = false ∧ t.ip = some 101 := by decide

/-- N31. -/
theorem test_addi_acc :
    let t := after (ready 100 (some ⟨6, 0, 0, 0, 0⟩) [(100, ⟨9, 3, 0, 0, 5⟩)])
    t.status = .fault (.invalidWord .acc) := by decide

/-- N32. -/
theorem test_addiw :
    let t := after (ready 100 (some ⟨0, 0, 0, 1, 0⟩) [(100, ⟨9, 3, 1, 0, 0⟩), (101, ⟨1, 0, 0, 0, 3⟩)])
    t.acc = some ⟨0, 0, 0, 0, 7⟩ ∧ t.zero = false ∧ t.negative = false ∧ t.ip = some 102 := by decide

/-- N34. -/
theorem test_addiw_accFirst :
    let t := after (ready 100 none [(100, ⟨9, 3, 1, 0, 0⟩), (101, ⟨6, 0, 0, 0, 0⟩)])
    t.status = .fault (.accUnset) := by decide

/-- N35. -/
theorem test_addn :
    let t := after (ready 100 (some ⟨0, 0, 0, 0, 1⟩) [(20, ⟨0, 0, 0, 3, 0⟩), (21, ⟨0, 0, 0, 3, 1⟩), (30, ⟨0, 0, 0, 0, 9⟩), (31, ⟨1, 0, 0, 0, 9⟩), (100, ⟨9, 3, 2, 2, 0⟩)])
    t.acc = some ⟨0, 0, 0, 1, 0⟩ ∧ t.ip = some 101 := by decide

/-- N36. -/
theorem test_addnw :
    let t := after (ready 100 (some ⟨0, 0, 0, 0, 9⟩) [(20, ⟨0, 0, 0, 3, 0⟩), (21, ⟨0, 0, 0, 3, 1⟩), (30, ⟨0, 0, 0, 0, 9⟩), (31, ⟨1, 0, 0, 0, 9⟩), (100, ⟨9, 3, 3, 0, 0⟩), (101, ⟨0, 0, 0, 2, 1⟩)])
    t.acc = some ⟨0, 0, 0, 0, 0⟩ ∧ t.zero = true ∧ t.negative = false ∧ t.ip = some 102 := by decide

/-- N37. -/
theorem test_subi :
    let t := after (ready 100 (some ⟨1, 0, 0, 8, 4⟩) [(100, ⟨9, 4, 0, 0, 3⟩)])
    t.acc = some ⟨1, 0, 0, 8, 7⟩ ∧ t.zero = false ∧ t.negative = true := by decide

/-- N38. -/
theorem test_subi_overflow :
    let t := after (ready 100 (some ⟨1, 9, 9, 9, 9⟩) [(100, ⟨9, 4, 0, 0, 1⟩)])
    t.status = .fault (.arithmeticOverflow (-10000)) := by decide

/-- N39. -/
theorem test_subiw :
    let t := after (ready 100 (some ⟨0, 0, 0, 1, 0⟩) [(100, ⟨9, 4, 1, 0, 0⟩), (101, ⟨0, 0, 0, 2, 5⟩)])
    t.acc = some ⟨1, 0, 0, 1, 5⟩ ∧ t.zero = false ∧ t.negative = true ∧ t.ip = some 102 := by decide

/-- N41. -/
theorem test_subn :
    let t := after (ready 100 (some ⟨0, 0, 0, 0, 9⟩) [(20, ⟨0, 0, 0, 3, 0⟩), (21, ⟨0, 0, 0, 3, 1⟩), (30, ⟨0, 0, 0, 0, 9⟩), (31, ⟨1, 0, 0, 0, 9⟩), (100, ⟨9, 4, 2, 2, 0⟩)])
    t.acc = some ⟨0, 0, 0, 0, 0⟩ ∧ t.zero = true ∧ t.negative = false ∧ t.ip = some 101 := by decide

/-- N42. -/
theorem test_subnw :
    let t := after (ready 100 (some ⟨0, 0, 0, 0, 1⟩) [(20, ⟨0, 0, 0, 3, 0⟩), (21, ⟨0, 0, 0, 3, 1⟩), (30, ⟨0, 0, 0, 0, 9⟩), (31, ⟨1, 0, 0, 0, 9⟩), (100, ⟨9, 4, 3, 0, 0⟩), (101, ⟨0, 0, 0, 2, 1⟩)])
    t.acc = some ⟨0, 0, 0, 1, 0⟩ ∧ t.zero = false ∧ t.negative = false ∧ t.ip = some 102 := by decide

/-- N45. -/
theorem test_muli :
    let t := after (ready 100 (some ⟨1, 0, 0, 0, 0⟩) [(100, ⟨9, 5, 0, 0, 1⟩)])
    t.acc = some ⟨0, 0, 0, 0, 0⟩ ∧ t.zero = true ∧ t.negative = false := by decide

/-- N46. -/
theorem test_muli_overflow :
    let t := after (ready 100 (some ⟨0, 0, 1, 0, 2⟩) [(100, ⟨9, 5, 0, 9, 9⟩)])
    t.status = .fault (.arithmeticOverflow 10098) ∧ t.acc = some ⟨0, 0, 1, 0, 2⟩ := by decide

/-- N47. -/
theorem test_muliw :
    let t := after (ready 100 (some ⟨0, 0, 0, 8, 4⟩) [(100, ⟨9, 5, 1, 0, 0⟩), (101, ⟨1, 0, 0, 0, 1⟩)])
    t.acc = some ⟨1, 0, 0, 8, 4⟩ ∧ t.zero = false ∧ t.negative = true ∧ t.ip = some 102 := by decide

/-- N48. -/
theorem test_muln :
    let t := after (ready 100 (some ⟨0, 0, 0, 0, 3⟩) [(20, ⟨0, 0, 0, 3, 0⟩), (21, ⟨0, 0, 0, 3, 1⟩), (30, ⟨0, 0, 0, 0, 9⟩), (31, ⟨1, 0, 0, 0, 9⟩), (100, ⟨9, 5, 2, 2, 1⟩)])
    t.acc = some ⟨1, 0, 0, 2, 7⟩ ∧ t.zero = false ∧ t.negative = true := by decide

/-- N50. -/
theorem test_muln_final :
    let t := after (ready 100 (some ⟨0, 0, 0, 0, 2⟩) [(22, ⟨0, 0, 0, 4, 0⟩), (40, ⟨7, 0, 0, 0, 0⟩), (100, ⟨9, 5, 2, 2, 2⟩)])
    t.status = .fault (.invalidWord (.mem 40)) := by decide

/-- N49. -/
theorem test_mulnw :
    let t := after (ready 100 (some ⟨1, 0, 0, 0, 2⟩) [(20, ⟨0, 0, 0, 3, 0⟩), (21, ⟨0, 0, 0, 3, 1⟩), (30, ⟨0, 0, 0, 0, 9⟩), (31, ⟨1, 0, 0, 0, 9⟩), (100, ⟨9, 5, 3, 0, 0⟩), (101, ⟨0, 0, 0, 2, 0⟩)])
    t.acc = some ⟨1, 0, 0, 1, 8⟩ ∧ t.zero = false ∧ t.negative = true ∧ t.ip = some 102 := by decide

/-- E1. -/
theorem test_fetch_filler :
    let t := after (ready 100 none [])
    t.status = .fault (.unknownInstruction 100) ∧ t.halted = .yes := by decide

/-- E3. -/
theorem test_fetch_lowDigits :
    let t := after (ready 0 (some ⟨0, 0, 0, 0, 1⟩) [(0, ⟨0, 3, 0, 0, 7⟩)])
    t.status = .fault (.unknownInstruction 0) ∧ t.sp = 9999 := by decide

/-- E4. -/
theorem test_fetch_past :
    let t := after (ready 10000 none [])
    t.status = .fault (.addressOutOfRange 10000) ∧ t.ip = some 10000 := by decide

/-- N6. -/
theorem test_operand_filler :
    let t := after (ready 100 none [(100, ⟨9, 1, 1, 0, 0⟩)])
    t.status = .fault (.invalidWord (.mem 101)) := by decide

/-- E8. -/
theorem test_guard_halted :
    let t := after ({ ready 0 none [(0, ⟨1, 0, 0, 0, 0⟩)] with halted := .yes })
    t.status = .refused .alreadyHalted ∧ t.acc = none ∧ t.halted = .yes := by decide

/-- E12. -/
theorem test_guard_order :
    let t := after ({ ready 0 none [(0, ⟨1, 0, 0, 0, 0⟩)] with loaded := false, halted := .yes })
    t.status = .refused .notLoaded ∧ t.halted = .yes := by decide

/-- E6. -/
theorem test_ip_unset :
    let t := after ({ ready 0 none [(0, ⟨0, 0, 0, 0, 0⟩)] with ip := none, halted := .unset })
    t.status = .fault (.ipUnset) ∧ t.ip = none ∧ t.halted = .yes := by decide

/-! ## The loader (section 2.9) -/

/-- H4, and a comment without a blank before it. -/
theorem test_loader :
    let t := State.reset.load (some ["0 10005".toList, "1 0 ; stop".toList, "5 42;x".toList])
    t.status = .loadOk ∧ t.mem = [(0, ⟨1, 0, 0, 0, 5⟩), (1, ⟨0, 0, 0, 0, 0⟩), (5, ⟨0, 0, 0, 4, 2⟩)] ∧ t.loaded = true ∧ t.halted = .no := by
  decide

/-- H6. -/
theorem test_loader_noRollback :
    let t := State.reset.load (some ["0 10005".toList, "1 2 3".toList, "5 42".toList])
    t.status = .loadError ∧ t.mem = [(0, ⟨1, 0, 0, 0, 5⟩)] ∧ t.loaded = false := by decide

/-- H7 to H11. -/
theorem test_line_violations :
    parseLine "10000 1".toList = none ∧ parseLine "7 x12".toList = none ∧ parseLine "7 123456".toList = none ∧
    parseLine "7 -5".toList = none ∧ parseLine "".toList = none := by decide

/-- H12. -/
theorem test_loader_lastWins :
    (State.reset.load (some ["3 7".toList, "3 8".toList])).mem = [(3, ⟨0, 0, 0, 0, 8⟩)] := by decide

/-- H13, H14. -/
theorem test_startAddress :
    (State.reset.setStartAddress 0).ip = some 0 ∧ (State.reset.setStartAddress 10000).ip = none ∧
    (State.reset.setStartAddress 10000).status = .refused .badStartAddress := by decide

/-- H17. -/
theorem test_accessors :
    accDecoded (ready 0 (some ⟨1, 0, 0, 4, 2⟩) []) = some (-42) ∧
    memoryRangeDecoded (ready 0 none [(7, ⟨6, 0, 0, 0, 0⟩)]) 7 2 = some [none, none] ∧
    memoryRange (ready 0 none [(7, ⟨6, 0, 0, 0, 0⟩)]) 7 2 = some [some ⟨6, 0, 0, 0, 0⟩, none] ∧
    memoryRange State.reset 9999 2 = none := by decide

/-! ## Witnesses: for every obligation with hypotheses, data that meet them, each clause at a boundary of its range

`wit_<obligation>` shows the hypotheses only. -/

/-- A machine with an empty stack. -/
def empty : State := ready 0 (some ⟨0, 0, 0, 0, 7⟩) [(0, ⟨0, 3, 0, 0, 0⟩)]

/-- A machine with every cell written and `n` as its stack pointer. -/
def zeroed (n : Nat) : State := { empty.hostReset with sp := n }

theorem empty_inv : empty.Inv :=
  ⟨by simp [empty, ready], by decide, rfl, by decide, rfl, by intro a h h'; simp [empty, ready, State.reset, Config.spInit, Config.bpInit] at h h'; omega⟩

theorem zeroed_inv (n : Nat) (h : n ≤ 9999) : (zeroed n).Inv := by
  refine ⟨by simp [zeroed, empty, ready, State.hostReset, State.setMem, State.clearHalted, State.report], h, rfl, ?_, wf_zeroCells, ?_⟩
  · rintro ⟨h1, _⟩; cases h1
  · intro a _ h'
    have h2 : a < 9999 := h'
    have h3 : (zeroed n).mem.read a = some CellValue.zero :=
      read_zeroCells Config.memSize 0 a (Nat.zero_le a) (by have : Config.memSize = 10000 := rfl; omega)
    rw [h3]; simp

theorem wit_numericWordsDecode :
    (⟨1, 9, 9, 9, 9⟩ : CellValue).d0.val = 1 ∧ (⟨0, 9, 9, 9, 9⟩ : CellValue).d0.val = 0 ∧ 2 ≤ (⟨2, 0, 0, 0, 0⟩ : CellValue).d0.val := by
  decide

theorem wit_encodeDecodeNumbers :
    ((-9999 : Int) ≤ -9999 ∧ (-9999 : Int) ≤ 9999) ∧ ((-9999 : Int) ≤ 9999 ∧ (9999 : Int) ≤ 9999) ∧
    ((⟨1, 0, 0, 0, 1⟩ : CellValue).d0.val ≤ 1 ∧ (⟨1, 0, 0, 0, 1⟩ : CellValue) ≠ ⟨1, 0, 0, 0, 0⟩) ∧
    ((-10000 : Int) < -9999 ∨ (9999 : Int) < -10000) ∧ ((10000 : Int) < -9999 ∨ (9999 : Int) < 10000) := by decide

theorem wit_shortImmediateZeroExtends : (0 : Nat) ≤ 99 ∧ (99 : Nat) ≤ 99 := by decide

theorem wit_decodeReadsEncode :
    Instr.wellFormed (.dec 999) = true ∧ Instr.wellFormed (.brz 9999) = true ∧ Instr.wellFormed (.mulnw ⟨9, 9, 9, 9, 9⟩) = true := by decide

theorem wit_encodeReproducesDecodedWords :
    decodeWords [⟨0, 4, 0, 0, 0⟩, ⟨9, 9, 9, 9, 9⟩] = .ok (.pop, [⟨9, 9, 9, 9, 9⟩]) ∧
    decodeWords [⟨9, 5, 3, 0, 0⟩, ⟨1, 0, 0, 0, 0⟩] = .ok (.mulnw ⟨1, 0, 0, 0, 0⟩, []) := by decide

/-- One word in each listed range and one just outside each. -/
theorem wit_illegalCellValues :
    decodeHead ⟨0, 0, 9, 9, 9⟩ = .unknown ∧ decodeHead ⟨0, 1, 0, 0, 0⟩ ≠ .unknown ∧ decodeHead ⟨0, 3, 9, 9, 9⟩ = .unknown ∧
    decodeHead ⟨0, 4, 9, 9, 9⟩ = .unknown ∧ decodeHead ⟨0, 9, 9, 9, 9⟩ = .unknown ∧ decodeHead ⟨1, 0, 0, 0, 0⟩ ≠ .unknown ∧
    decodeHead ⟨9, 0, 6, 9, 9⟩ = .unknown ∧ decodeHead ⟨9, 0, 7, 0, 0⟩ ≠ .unknown ∧ decodeHead ⟨9, 0, 9, 9, 9⟩ = .unknown ∧
    decodeHead ⟨9, 5, 9, 9, 9⟩ = .unknown ∧ decodeHead ⟨9, 5, 1, 9, 9⟩ = .unknown ∧ decodeHead ⟨9, 5, 2, 0, 0⟩ ≠ .unknown ∧
    decodeHead ⟨9, 5, 3, 9, 9⟩ = .unknown ∧ decodeHead ⟨9, 6, 0, 0, 0⟩ = .unknown := by decide

theorem wit_instructionWordTellsLength :
    decodeHead ⟨9, 5, 3, 0, 0⟩ ≠ .unknown ∧ decodeHead ⟨9, 5, 2, 9, 9⟩ ≠ .unknown ∧ decodeHead ⟨8, 9, 9, 9, 9⟩ ≠ .unknown := by decide

theorem wit_checkedMemoryAccess :
    (9999 : Nat) < 10000 ∧ (9999 : Nat) ≤ 9999 ∧ State.reset.mem.read 9999 = none ∧ empty.mem.read 0 = some ⟨0, 3, 0, 0, 0⟩ := by decide

theorem wit_pointerWordsNameAddresses :
    (⟨0, 9, 9, 9, 9⟩ : CellValue).d0.val = 0 ∧ (⟨1, 0, 0, 0, 0⟩ : CellValue).d0.val = 1 ∧
    ((⟨1, 0, 0, 0, 1⟩ : CellValue).d0.val = 1 ∧ 1000 * 0 + 100 * 0 + 10 * 0 + 1 ≠ 0) ∧ 2 ≤ (⟨2, 0, 0, 0, 0⟩ : CellValue).d0.val := by decide

theorem wit_setFlagsFollowsResult : (-1 : Int) < 0 ∧ (0 : Int) < 1 ∧ ((-9999 : Int) ≤ -9999 ∧ (-9999 : Int) ≤ 9999) := by decide

theorem wit_pushWritesBelowStackPointer :
    (zeroed 0).sp = 0 ∧ (0 < (zeroed 1).sp ∧ (zeroed 1).sp ≤ 9999) ∧ (0 < empty.sp ∧ empty.sp ≤ 9999) :=
  ⟨rfl, ⟨Nat.one_pos, by show 1 ≤ 9999; omega⟩, by decide⟩

theorem wit_popReadsAtStackPointer :
    empty.bp ≤ empty.sp ∧ ((zeroed 9998).Inv ∧ (zeroed 9998).sp < (zeroed 9998).bp) ∧ ((zeroed 0).Inv ∧ (zeroed 0).sp < (zeroed 0).bp) :=
  ⟨by decide, ⟨zeroed_inv _ (by omega), by show 9998 < 9999; omega⟩, ⟨zeroed_inv _ (by omega), by show 0 < 9999; omega⟩⟩

/-- The three protection states, `Partial` at both of its ends. -/
theorem wit_stackProtectionStates :
    (empty.Inv ∧ empty.ip = some 0 ∧ stackState empty = .empty ∧ empty.acc ≠ none) ∧
    ((zeroed 9998).Inv ∧ (zeroed 9998).ip = some 0 ∧ stackState (zeroed 9998) = .partly ∧ (zeroed 9998).acc ≠ none) ∧
    ((zeroed 1).Inv ∧ stackState (zeroed 1) = .partly) ∧ ((zeroed 0).Inv ∧ stackState (zeroed 0) = .full) :=
  ⟨⟨empty_inv, rfl, rfl, by decide⟩, ⟨zeroed_inv _ (by omega), rfl, rfl, by rw [show (zeroed 9998).acc = empty.acc from rfl]; decide⟩,
    ⟨zeroed_inv _ (by omega), rfl⟩, ⟨zeroed_inv _ (by omega), rfl⟩⟩

theorem wit_pushesThenPopsReverse :
    empty.Inv ∧ empty.sp = empty.bp ∧ (List.replicate 9999 (⟨0, 0, 0, 0, 7⟩ : CellValue)).length ≤ 9999 :=
  ⟨empty_inv, rfl, by rw [List.length_replicate]⟩

theorem wit_haltStopsTheMachine :
    empty.ip = some 0 ∧ empty.loaded = true ∧ (∃ t, exec .halt empty = .next t ∧
      (t.load (some ["0 10005".toList])).status = .loadOk) ∧ (⟨0, 0, 0, 0, 0⟩ : CellValue).d0 = 0 ∧ (ready 9999 none []).ip = some 9999 :=
  ⟨rfl, rfl, ⟨empty.halt, rfl, by decide⟩, rfl, rfl⟩

theorem wit_incAndDecChangeTheirCell :
    let s := ready 3 none [(5, ⟨0, 9, 9, 9, 8⟩), (999, ⟨1, 9, 9, 9, 8⟩)]
    s.ip = some 3 ∧ (5 : Nat) ≤ 999 ∧ s.mem.read 5 = some ⟨0, 9, 9, 9, 8⟩ ∧ decodeNum ⟨0, 9, 9, 9, 8⟩ + 1 ≤ 9999 ∧
    s.mem.read 999 = some ⟨1, 9, 9, 9, 8⟩ ∧ -9999 ≤ decodeNum ⟨1, 9, 9, 9, 8⟩ - 1 := by decide

theorem wit_pushAndPopTransport :
    (empty.ip = some 0 ∧ empty.acc = some ⟨0, 0, 0, 0, 7⟩ ∧ 0 < empty.sp ∧ empty.sp ≤ 9999) ∧
    (let s := { ready 0 none [(9998, ⟨6, 0, 0, 0, 0⟩)] with sp := 9998 }
     s.ip = some 0 ∧ s.sp < s.bp ∧ s.sp ≤ 9999 ∧ s.mem.read s.sp = some ⟨6, 0, 0, 0, 0⟩) := by decide

theorem wit_loadAndStoreTransport :
    let s := ready 0 (some ⟨9, 9, 9, 9, 9⟩) [(9999, ⟨9, 9, 9, 9, 9⟩)]
    (9999 : Nat) ≤ 9999 ∧ s.ip = some 0 ∧ s.mem.read 9999 = some ⟨9, 9, 9, 9, 9⟩ ∧ s.acc = some ⟨9, 9, 9, 9, 9⟩ := by decide

/-- The largest sum, the least difference and the largest product in range. -/
theorem wit_directArithmeticComputes :
    (let s := ready 0 (some ⟨0, 9, 9, 9, 8⟩) [(9999, ⟨0, 0, 0, 0, 1⟩)]
     (9999 : Nat) ≤ 9999 ∧ s.ip = some 0 ∧ s.acc = some ⟨0, 9, 9, 9, 8⟩ ∧ s.mem.read 9999 = some ⟨0, 0, 0, 0, 1⟩) ∧
    Computes (· + ·) ⟨0, 9, 9, 9, 8⟩ ⟨0, 0, 0, 0, 1⟩ 9999 ∧ Computes (· - ·) ⟨1, 9, 9, 9, 8⟩ ⟨0, 0, 0, 0, 1⟩ (-9999) ∧
    Computes (· * ·) ⟨0, 0, 0, 9, 9⟩ ⟨0, 0, 1, 0, 1⟩ 9999 :=
  ⟨by decide, ⟨by decide, by decide, by decide, by decide, by decide⟩, ⟨by decide, by decide, by decide, by decide, by decide⟩,
    ⟨by decide, by decide, by decide, by decide, by decide⟩⟩

theorem wit_unconditionalBranch :
    let s := ready 9999 none [(9999, ⟨6, 9, 9, 9, 9⟩)]
    s.Runnable ∧ s.ip = some 9999 ∧ (9999 : Nat) ≤ 9999 ∧ s.mem.read 9999 = some ⟨6, 9, 9, 9, 9⟩ ∧
    decodeHead ⟨6, 9, 9, 9, 9⟩ = .oneWord (.br 9999) := by decide

theorem wit_accumulatorBranches :
    (ready 5 (some ⟨1, 0, 0, 0, 0⟩) []).ip = some 5 ∧ (ready 5 (some ⟨1, 0, 0, 0, 0⟩) []).acc = some ⟨1, 0, 0, 0, 0⟩ := by decide

theorem wit_flagBranches : (ready 9999 none []).ip = some 9999 := rfl

/-- Pointer cell 99, final cell 9999. -/
def pointing : State := ready 100 (some ⟨0, 0, 0, 0, 1⟩) [(99, ⟨0, 9, 9, 9, 9⟩), (9999, ⟨0, 0, 0, 0, 9⟩)]

theorem pointing_resolves : Resolves pointing 99 9999 ⟨0, 0, 0, 0, 9⟩ :=
  ⟨by omega, ⟨0, 9, 9, 9, 9⟩, by decide, ⟨by decide, by decide⟩, by omega, by decide⟩

theorem pointsTo_ninetyNine : PointsTo ⟨0, 0, 0, 9, 9⟩ 99 := ⟨by decide, by decide⟩

/-- Negative zero names address 0 (D12). -/
theorem pointsTo_negativeZero : PointsTo ⟨1, 0, 0, 0, 0⟩ 0 := ⟨by decide, by decide⟩

theorem wit_pushFormsPushTheirOperand :
    pointing.ip = some 100 ∧ 0 < pointing.sp ∧ pointing.sp ≤ 9999 ∧ (99 : Nat) ≤ 99 ∧
    Resolves pointing 99 9999 ⟨0, 0, 0, 0, 9⟩ ∧ PointsTo ⟨0, 0, 0, 9, 9⟩ 99 :=
  ⟨rfl, by decide, by decide, by omega, pointing_resolves, pointsTo_ninetyNine⟩

theorem wit_loadFormsLoadTheirOperand :
    pointing.ip = some 100 ∧ (99 : Nat) ≤ 99 ∧ Resolves pointing 99 9999 ⟨0, 0, 0, 0, 9⟩ ∧ PointsTo ⟨0, 0, 0, 9, 9⟩ 99 :=
  ⟨rfl, by omega, pointing_resolves, pointsTo_ninetyNine⟩

theorem wit_immediateArithmeticComputes :
    (pointing.ip = some 100 ∧ pointing.acc = some ⟨0, 0, 0, 0, 1⟩ ∧ (99 : Nat) ≤ 99 ∧ (⟨0, 0, 0, 0, 1⟩ : CellValue).d0.val ≤ 1) ∧
    decodeNum ⟨0, 9, 9, 0, 0⟩ + ((99 : Nat) : Int) ≤ 9999 ∧ -9999 ≤ decodeNum ⟨1, 9, 9, 0, 0⟩ - ((99 : Nat) : Int) ∧
    (-9999 ≤ decodeNum ⟨1, 0, 1, 0, 1⟩ * ((99 : Nat) : Int) ∧ decodeNum ⟨1, 0, 1, 0, 1⟩ * ((99 : Nat) : Int) ≤ 9999) ∧
    Computes (· + ·) ⟨0, 0, 0, 0, 1⟩ ⟨0, 9, 9, 9, 8⟩ 9999 ∧ Computes (· - ·) ⟨0, 0, 0, 0, 1⟩ ⟨1, 9, 9, 9, 8⟩ 9999 ∧
    Computes (· * ·) ⟨0, 0, 0, 0, 1⟩ ⟨1, 9, 9, 9, 9⟩ (-9999) :=
  ⟨by decide, by decide, by decide, by decide, ⟨by decide, by decide, by decide, by decide, by decide⟩,
    ⟨by decide, by decide, by decide, by decide, by decide⟩, ⟨by decide, by decide, by decide, by decide, by decide⟩⟩

theorem wit_indirectArithmeticComputes :
    pointing.ip = some 100 ∧ pointing.acc = some ⟨0, 0, 0, 0, 1⟩ ∧ (99 : Nat) ≤ 99 ∧ Resolves pointing 99 9999 ⟨0, 0, 0, 0, 9⟩ ∧
    PointsTo ⟨0, 0, 0, 9, 9⟩ 99 ∧ Computes (· + ·) ⟨0, 0, 0, 0, 1⟩ ⟨0, 0, 0, 0, 9⟩ 10 ∧
    Computes (· - ·) ⟨0, 0, 0, 0, 1⟩ ⟨0, 0, 0, 0, 9⟩ (-8) ∧ Computes (· * ·) ⟨0, 0, 0, 0, 1⟩ ⟨0, 0, 0, 0, 9⟩ 9 :=
  ⟨rfl, by decide, by omega, pointing_resolves, pointsTo_ninetyNine, ⟨by decide, by decide, by decide, by decide, by decide⟩,
    ⟨by decide, by decide, by decide, by decide, by decide⟩, ⟨by decide, by decide, by decide, by decide, by decide⟩⟩

theorem wit_directReadOfFillerTraps :
    (9999 : Nat) ≤ 9999 ∧ empty.ip = some 0 ∧ empty.mem.read 9999 = none ∧ Instr.mul 9999 ∈ [Instr.inc 9999, .dec 9999, .load 9999, .add 9999, .sub 9999, .mul 9999] := by
  decide

theorem wit_incAndDecTrap :
    let s := ready 0 none [(5, ⟨2, 0, 0, 0, 0⟩), (6, ⟨0, 9, 9, 9, 9⟩), (999, ⟨1, 9, 9, 9, 9⟩)]
    s.ip = some 0 ∧ (999 : Nat) ≤ 999 ∧ s.mem.read 5 = some ⟨2, 0, 0, 0, 0⟩ ∧ 2 ≤ (⟨2, 0, 0, 0, 0⟩ : CellValue).d0.val ∧
    s.mem.read 6 = some ⟨0, 9, 9, 9, 9⟩ ∧ s.mem.read 999 = some ⟨1, 9, 9, 9, 9⟩ := by decide

theorem wit_unsetAccumulatorTraps :
    (ready 0 none []).ip = some 0 ∧ (ready 0 none []).acc = none ∧ Instr.push ∈ [Instr.push, .store 0, .brn 0, .brz 0] := by decide

/-- Each of the four faults: `acc` unset, `acc` led by 2, the operand led by 2, the least result out of range. -/
theorem wit_arithmeticTrapsInOrder :
    (let s := ready 0 none [(9999, ⟨2, 0, 0, 0, 0⟩)]
     s.ip = some 0 ∧ s.acc = none ∧ ArithForm s 0 (.add 9999) (fun x y => x + y) ⟨2, 0, 0, 0, 0⟩ (.mem 9999)) ∧
    (let s := ready 0 (some ⟨2, 0, 0, 0, 0⟩) []
     s.acc = some ⟨2, 0, 0, 0, 0⟩ ∧ 2 ≤ (⟨2, 0, 0, 0, 0⟩ : CellValue).d0.val ∧ ArithForm s 0 (.muli 99) (fun x y => x * y) (zext5 99) .imm) ∧
    (let s := ready 0 (some ⟨1, 0, 0, 0, 0⟩) []
     s.acc = some ⟨1, 0, 0, 0, 0⟩ ∧ ArithForm s 0 (.subiw ⟨2, 0, 0, 0, 0⟩) (fun x y => x - y) ⟨2, 0, 0, 0, 0⟩ (.mem 1)) ∧
    (ArithForm pointing 100 (.addnw ⟨0, 0, 0, 9, 9⟩) (fun x y => x + y) ⟨0, 0, 0, 0, 9⟩ (.mem 9999) ∧
     decodeNum ⟨0, 9, 9, 9, 1⟩ + decodeNum ⟨0, 0, 0, 0, 9⟩ = 10000 ∧ (9999 : Int) < 10000) :=
  ⟨⟨rfl, rfl, .add 9999 _ (by omega) (by decide)⟩, ⟨rfl, by decide, .muli 99 (by omega)⟩, ⟨rfl, .subiw _⟩,
    ⟨.addnw _ 99 9999 _ pointsTo_ninetyNine pointing_resolves, by decide, by decide⟩⟩

/-- Each fault of operand resolution, through a short and through a word indirect form. -/
theorem wit_indirectOperandTrapsInOrder :
    (let s := ready 0 none [(22, ⟨2, 0, 0, 0, 0⟩), (23, ⟨1, 0, 0, 0, 1⟩), (24, ⟨0, 9, 9, 9, 9⟩)]
     s.ip = some 0 ∧ shortIndirect (.ldn 22) = some 22 ∧ s.mem.read 99 = none ∧ s.mem.read 22 = some ⟨2, 0, 0, 0, 0⟩ ∧
     s.mem.read 23 = some ⟨1, 0, 0, 0, 1⟩ ∧ decodeNum ⟨1, 0, 0, 0, 1⟩ < 0 ∧ s.mem.read 24 = some ⟨0, 9, 9, 9, 9⟩ ∧ s.mem.read 9999 = none) ∧
    PointsTo ⟨0, 9, 9, 9, 9⟩ 9999 ∧ wordIndirect (.mulnw ⟨0, 0, 0, 9, 9⟩) = some ⟨0, 0, 0, 9, 9⟩ ∧ PointsTo ⟨0, 0, 0, 9, 9⟩ 99 ∧
    (wordIndirect (.pushnw ⟨2, 0, 0, 0, 0⟩) = some ⟨2, 0, 0, 0, 0⟩ ∧ wordIndirect (.ldnw ⟨1, 0, 0, 0, 1⟩) = some ⟨1, 0, 0, 0, 1⟩) :=
  ⟨by decide, ⟨by decide, by decide⟩, rfl, pointsTo_ninetyNine, rfl, rfl⟩

theorem wit_pushFormsOverflow :
    let s := { pointing with sp := 0 }
    s.ip = some 100 ∧ s.sp = 0 ∧ (99 : Nat) ≤ 99 ∧ Resolves s 99 9999 ⟨0, 0, 0, 0, 9⟩ ∧ PointsTo ⟨0, 0, 0, 9, 9⟩ 99 :=
  ⟨rfl, rfl, by omega, pointing_resolves, pointsTo_ninetyNine⟩

theorem wit_faultsFollowTheTable :
    Instr.wellFormed .pop = true ∧ empty.Inv ∧ empty.ip ≠ none ∧
    ∃ t, exec .pop empty = .next t ∧ t.status = .fault (.stackUnderflow 9999) :=
  ⟨rfl, empty_inv, by decide, empty.takeFault (.stackUnderflow 9999), rfl, rfl⟩

/-- A completed instruction that does not write `acc`, and a fault of one that does. -/
theorem wit_accumulatorFrame :
    (∃ t, exec .push empty = .next t ∧ writesAcc .push = false) ∧
    ∃ t, exec .pop empty = .next t ∧ t.status = .fault (.stackUnderflow 9999) :=
  ⟨⟨after empty, rfl, rfl⟩, ⟨empty.takeFault (.stackUnderflow 9999), rfl, rfl⟩⟩

/-- Not a writer of `acc`, a writer that completes, a writer that faults. -/
theorem wit_accumulatorNotRead :
    (∃ t, readsAcc (.pushi 7) = false ∧ exec (.pushi 7) empty = .next t ∧ writesAcc (.pushi 7) = false) ∧
    (∃ t, readsAcc (.ldi 7) = false ∧ exec (.ldi 7) empty = .next t ∧ writesAcc (.ldi 7) = true ∧ t.status = .ok) ∧
    ∃ t, readsAcc .pop = false ∧ exec .pop empty = .next t ∧ t.status = .fault (.stackUnderflow 9999) :=
  ⟨⟨_, rfl, rfl, rfl⟩, ⟨_, rfl, rfl, rfl, rfl⟩, ⟨empty.takeFault (.stackUnderflow 9999), rfl, rfl, rfl⟩⟩

theorem wit_flagsFrame :
    (∃ t, exec .push empty = .next t ∧ writesFlags .push = false) ∧
    ∃ t, exec (.add 5) empty = .next t ∧ t.status = .fault (.invalidWord (.mem 5)) :=
  ⟨⟨after empty, rfl, rfl⟩, ⟨empty.takeFault (.invalidWord (.mem 5)), rfl, rfl⟩⟩

/-- A completed push, a completed pop, a fault, and an instruction that is neither. -/
theorem wit_controlStateFrame :
    (∃ t, exec .push empty = .next t ∧ pushes .push = true ∧ t.status = .ok) ∧
    (∃ t, exec .pop { empty with sp := 9998, mem := [(9998, ⟨0, 0, 0, 0, 1⟩)] } = .next t ∧ t.status = .ok) ∧
    (∃ t, exec .pop empty = .next t ∧ t.status = .fault (.stackUnderflow 9999)) ∧
    ∃ t, exec (.br 5) empty = .next t ∧ pushes (.br 5) = false ∧ Instr.br 5 ≠ .pop :=
  ⟨⟨after empty, rfl, rfl, rfl⟩, ⟨_, rfl, rfl⟩, ⟨empty.takeFault (.stackUnderflow 9999), rfl, rfl⟩, ⟨_, rfl, rfl, by decide⟩⟩

/-- The cell above the one a push stores to, and every cell of an instruction that faults. -/
theorem wit_memoryFrame :
    (∃ t, exec .push empty = .next t ∧ storedCell .push empty ≠ some 9999) ∧
    ∃ t, exec (.inc 5) empty = .next t ∧ t.status = .fault (.invalidWord (.mem 5)) :=
  ⟨⟨after empty, rfl, by decide⟩, ⟨empty.takeFault (.invalidWord (.mem 5)), rfl, rfl⟩⟩

/-- A completed instruction, HALT, and a fault. -/
theorem wit_instructionPointerRule :
    empty.ip = some 0 ∧ (∃ t, exec (.br 9999) empty = .next t) ∧ (∃ t, exec .halt empty = .next t) ∧ ∃ t, exec .pop empty = .next t :=
  ⟨rfl, ⟨_, rfl⟩, ⟨_, rfl⟩, ⟨empty.takeFault (.stackUnderflow 9999), rfl⟩⟩

theorem wit_stepRunsDecodedInstruction :
    (empty.Runnable ∧ empty.ip = some 0 ∧ empty.mem.read 0 = some ⟨0, 3, 0, 0, 0⟩ ∧ decodeHead ⟨0, 3, 0, 0, 0⟩ = .oneWord .push) ∧
    (let s := { ready 9998 none [(9998, ⟨9, 2, 1, 0, 0⟩), (9999, ⟨9, 9, 9, 9, 9⟩)] with halted := .unset }
     s.Runnable ∧ s.ip = some 9998 ∧ s.mem.read 9998 = some ⟨9, 2, 1, 0, 0⟩ ∧ s.mem.read (9998 + 1) = some ⟨9, 9, 9, 9, 9⟩ ∧
     decodeWords [⟨9, 2, 1, 0, 0⟩, ⟨9, 9, 9, 9, 9⟩] = .ok (.ldiw ⟨9, 9, 9, 9, 9⟩, [])) := by decide

theorem wit_refusedStepChangesNothing :
    State.reset.loaded = false ∧ { empty with halted := .yes }.loaded = true ∧ { empty with halted := .yes }.halted = .yes := by decide

/-- Each fault of fetch and decode, at the ends of the ranges. -/
theorem wit_fetchAndDecodeTraps :
    (let s := { ready 0 none [] with ip := none }
     s.Runnable ∧ s.ip = none) ∧
    ((ready 10000 none []).Runnable ∧ (ready 10000 none []).ip = some 10000 ∧ (9999 : Nat) < 10000) ∧
    ((ready 9999 none []).ip = some 9999 ∧ (ready 9999 none []).mem.read 9999 = none) ∧
    ((ready 9999 none [(9999, ⟨9, 9, 9, 9, 9⟩)]).mem.read 9999 = some ⟨9, 9, 9, 9, 9⟩ ∧ decodeHead ⟨9, 9, 9, 9, 9⟩ = .unknown) ∧
    ((ready 9999 none [(9999, ⟨9, 1, 1, 0, 0⟩)]).mem.read 9999 = some ⟨9, 1, 1, 0, 0⟩ ∧ decodedWords (decodeHead ⟨9, 1, 1, 0, 0⟩) = some 2) ∧
    ((ready 9998 none [(9998, ⟨9, 1, 1, 0, 0⟩)]).mem.read 9998 = some ⟨9, 1, 1, 0, 0⟩ ∧
     (ready 9998 none [(9998, ⟨9, 1, 1, 0, 0⟩)]).mem.read (9998 + 1) = none) := by decide

theorem wit_faultIsAtomic :
    let s := ready 0 none [(0, ⟨0, 4, 0, 0, 0⟩)]
    s.Runnable ∧ ∃ t, step s = .next t ∧ t.status = .fault (.stackUnderflow 9999) :=
  ⟨by decide, ⟨after (ready 0 none [(0, ⟨0, 4, 0, 0, 0⟩)]), rfl, rfl⟩⟩

theorem wit_stepKeepsInvariant : empty.Inv ∧ ∃ t, step empty = .next t ∧ t.status = .ok :=
  ⟨empty_inv, ⟨after empty, rfl, rfl⟩⟩

theorem wit_hostCallsKeepInvariant :
    empty.Inv ∧ (∃ t, call .step empty = .next t) ∧ (∃ t, call .reset empty = .next t) ∧ (∃ t, call (.load none) empty = .next t) ∧
    (∃ t, call (.setStartAddress 9999) empty = .next t) :=
  ⟨empty_inv, ⟨after empty, rfl⟩, ⟨_, rfl⟩, ⟨_, rfl⟩, ⟨_, rfl⟩⟩

/-- The three engine states; a load that succeeds and one that fails. -/
theorem wit_engineTransitions :
    engineState State.reset = .notLoaded ∧ engineState empty = .ready ∧ engineState { empty with halted := .yes } = .halted ∧
    (∃ t, call .step empty = .next t ∧ t.status = .ok) ∧ (∃ t, call .reset empty = .next t) ∧
    (∃ t, call (.load (some [])) empty = .next t ∧ t.status = .loadOk) ∧ (∃ t, call (.load none) empty = .next t ∧ t.status = .loadError) ∧
    ∃ t, call (.setStartAddress 10000) empty = .next t :=
  ⟨rfl, rfl, rfl, ⟨after empty, rfl, rfl⟩, ⟨_, rfl⟩, ⟨_, rfl, rfl⟩, ⟨_, rfl, rfl⟩, ⟨_, rfl⟩⟩

theorem wit_storedWordIsFetchedNext :
    let s := ready 9998 (some ⟨0, 0, 0, 0, 0⟩) [(9998, ⟨2, 9, 9, 9, 9⟩)]
    s.Runnable ∧ s.ip = some 9998 ∧ (9998 : Nat) ≤ 9998 ∧ s.mem.read 9998 = some (wordA4 2 (9998 + 1)) ∧
    s.acc = some ⟨0, 0, 0, 0, 0⟩ ∧ decodeHead ⟨0, 0, 0, 0, 0⟩ = .oneWord .halt := by decide

theorem wit_loadAppliesLinesInOrder :
    ["9999 99999".toList, "0 7".toList].map parseLine = [(9999, (⟨9, 9, 9, 9, 9⟩ : CellValue)), (0, ⟨0, 0, 0, 0, 7⟩)].map some ∧
    parseLine "10000 1".toList = none := by decide

/-- A good line at the largest address with five digits, an address and a value too large. -/
theorem wit_linesPadTheirDigits :
    ([9, 9, 9, 9] : List Digit) ≠ [] ∧ digitsValue [9, 9, 9, 9] ≤ 9999 ∧ ([1, 0, 0, 0, 5] : List Digit).length ≤ 5 ∧
    9999 < digitsValue [1, 0, 0, 0, 0] ∧ 5 < ([1, 2, 3, 4, 5, 6] : List Digit).length := by decide

theorem wit_startAddressChoosesIp : ((9999 : Int) = (9999 : Nat) ∧ (9999 : Nat) ≤ 9999) ∧ ((-1 : Int) < 0 ∨ (9999 : Int) < -1) ∧
    ((10000 : Int) < 0 ∨ (9999 : Int) < 10000) := by decide

theorem wit_accessorsReadRawAndDecoded :
    (⟨1, 0, 0, 4, 2⟩ : CellValue).d0.val ≤ 1 ∧ 2 ≤ (⟨6, 0, 0, 0, 0⟩ : CellValue).d0.val ∧ (9999 + 1 ≤ 10000 ∧ (0 : Nat) < 1) := by decide

theorem wit_hostResetZeroesMemory : (9999 : Nat) ≤ 9999 := by omega

end Sys2Proof.Tests
end

section
/-!
Proofs of the codec's obligations (00_scope.md R9, R10): what `decodeNum` and `encodeNum` answer, and how far they undo one another.
-/

namespace Sys2Proof.Machine

/-! ### `decode` (R9) -/

theorem decodeNum_of_led1 {w : CellValue} (h : w.d0.val = 1) : decodeNum w = -(magnitude w : Int) := if_pos h

theorem decodeNum_of_led0 {w : CellValue} (h : w.d0.val = 0) : decodeNum w = (magnitude w : Int) := if_neg (by simp [h])

/-- R9: negative zero is a numeric word and stands for 0. -/
theorem decodeNum_negativeZero : decodeNum ⟨1, 0, 0, 0, 0⟩ = 0 := rfl

/-- `"10000"` is the only word led by 1 whose magnitude is 0. -/
theorem eq_negativeZero_of_magnitude {w : CellValue} (h1 : w.d0.val = 1) (hm : magnitude w = 0) : w = ⟨1, 0, 0, 0, 0⟩ := by
  have hd0 : w.d0 = 1 := Fin.ext h1
  calc w = wordA4 w.d0 (magnitude w) := (wordA4_field w).symm
    _ = wordA4 1 0 := by rw [hd0, hm]
    _ = ⟨1, 0, 0, 0, 0⟩ := rfl

/-! ### `encode` (R10) -/

/-- A numeric word has the layout of a word with a four-digit field: the sign digit leads the magnitude. -/
theorem encodeNum_eq_wordA4 (v : Int) : encodeNum v = wordA4 (if v < 0 then 1 else 0) v.natAbs := rfl

theorem encodeNum_d0_val (v : Int) : (encodeNum v).d0.val = if v < 0 then 1 else 0 := by
  rw [encodeNum_eq_wordA4, wordA4]; split <;> rfl

theorem magnitude_encodeNum {v : Int} (h : v.natAbs ≤ 9999) : magnitude (encodeNum v) = v.natAbs := fieldA4_wordA4 _ h

theorem encodeNum_zero : encodeNum 0 = ⟨0, 0, 0, 0, 0⟩ := rfl

/-! ### Round trips (R10) -/

theorem decodeNum_encodeNum {v : Int} (h : v.natAbs ≤ 9999) : decodeNum (encodeNum v) = v := by
  have hm := magnitude_encodeNum h
  have hs := encodeNum_d0_val v
  by_cases hv : v < 0
  · rw [decodeNum_of_led1 (hs.trans (if_pos hv)), hm]; omega
  · rw [decodeNum_of_led0 (hs.trans (if_neg hv)), hm]; omega

/-- Negative zero would have to encode 0, which has the sign digit 0. -/
theorem encodeNum_ne_negativeZero {v : Int} (h : v.natAbs ≤ 9999) : encodeNum v ≠ ⟨1, 0, 0, 0, 0⟩ := by
  intro he
  have hv : v = 0 := by rw [← decodeNum_encodeNum h, he, decodeNum_negativeZero]
  rw [hv, encodeNum_zero] at he
  exact absurd he (by decide)

theorem encodeNum_decodeNum_of_led0 {w : CellValue} (h : w.d0.val = 0) : encodeNum (decodeNum w) = w := by
  have hd0 : w.d0 = 0 := Fin.ext h
  calc encodeNum (decodeNum w) = wordA4 0 (magnitude w) := by
        rw [decodeNum_of_led0 h, encodeNum_eq_wordA4, if_neg (by omega), Int.natAbs_natCast]
    _ = w := by rw [← hd0]; exact wordA4_field w

theorem encodeNum_decodeNum_of_led1 {w : CellValue} (h : w.d0.val = 1) (hw : w ≠ ⟨1, 0, 0, 0, 0⟩) : encodeNum (decodeNum w) = w := by
  have hd0 : w.d0 = 1 := Fin.ext h
  have hpos : magnitude w ≠ 0 := fun hm => hw (eq_negativeZero_of_magnitude h hm)
  calc encodeNum (decodeNum w) = wordA4 1 (magnitude w) := by
        rw [decodeNum_of_led1 h, encodeNum_eq_wordA4, if_pos (by omega), Int.natAbs_neg, Int.natAbs_natCast]
    _ = w := by rw [← hd0]; exact wordA4_field w

/-! ### The obligations -/

/-- Settles O2: the two round trips, and `CheckRange` faulting on every integer out of range. -/
theorem encodeDecodeNumbers : Obligations.EncodeDecodeNumbers := by
  refine ⟨fun v hlo hhi => ?_, encodeNum_zero, fun w hnum hw => ?_, fun v hv => (checkRange_error v _).mpr ⟨hv, rfl⟩⟩
  · have h : v.natAbs ≤ 9999 := by omega
    exact ⟨encodeNum_d0_val v, magnitude_encodeNum h, decodeNum_encodeNum h, encodeNum_ne_negativeZero h⟩
  · obtain h0 | h1 : w.d0.val = 0 ∨ w.d0.val = 1 := by omega
    · exact encodeNum_decodeNum_of_led0 h0
    · exact encodeNum_decodeNum_of_led1 h1 hw

/-- Settles O1: `decode` by the sign digit, the magnitude written out, and `Num` refusing every other lead. -/
theorem numericWordsDecode : Obligations.NumericWordsDecode := by
  refine ⟨fun w h => ?_, fun w h => ?_, decodeNum_negativeZero, fun w src h => (num_error w src _).mpr ⟨Nat.not_le.mpr h, rfl⟩⟩
  · rw [decodeNum_of_led1 h, magnitude_eq]
  · rw [decodeNum_of_led0 h, magnitude_eq]

end Sys2Proof.Machine
end

section
/-!
Proofs of the state's obligations (10_state.md R25, R28; 40_engine.md R105): where `ip` stands after an instruction, and what `SetFlags`
writes. `Effect.completesAt` says it once for all 35 instructions; it cites one lemma per shape of effect.
-/

namespace Sys2Proof.Machine

/-! ### Completion (R105, R106) -/

/-- An instruction other than HALT has completed in `t` and the next one is at `a`. -/
def CompletesAt (t : State) (a : Nat) : Prop := t.status = .ok ∧ t.ip = some a

theorem finish_completesAt (s : State) (p n : Nat) : CompletesAt (s.finish p n) (p + n) := ⟨rfl, rfl⟩

theorem jump_completesAt (s : State) (a : Nat) : CompletesAt (s.jump a) a := ⟨rfl, rfl⟩

theorem CellEffect.completesAt {a p : Nat} {d : Int} {s t : State} (h : CellEffect a d s p t) : CompletesAt t (p + 1) := by
  obtain ⟨_, _, _, _, _, _, rfl⟩ := h
  exact finish_completesAt _ p 1

theorem PushEffect.completesAt {v : CellValue} {n p : Nat} {s t : State} (h : PushEffect v n s p t) : CompletesAt t (p + n) := by
  obtain ⟨_, _, rfl⟩ := h
  exact finish_completesAt _ p n

theorem LoadEffect.completesAt {c : CellValue} {n p : Nat} {s t : State} (h : LoadEffect c n s p t) : CompletesAt t (p + n) :=
  h ▸ finish_completesAt _ p n

theorem ArithEffect.completesAt {op : ArithOp} {c : CellValue} {n p : Nat} {s t : State} (h : ArithEffect op c n s p t) :
    CompletesAt t (p + n) := by
  obtain ⟨_, _, _, _, _, _, rfl⟩ := h
  exact finish_completesAt _ p n

/-- A conditional branch, its condition as the meaning tests it (`b`) and as the rule states it (`c`). -/
theorem branch_completesAt {b c : Prop} [Decidable b] [Decidable c] (hbc : b ↔ c) (s : State) (a p : Nat) :
    CompletesAt (if b then s.jump a else s.finish p 1) ((if c then some a else none).getD (p + 1)) := by
  by_cases hb : b
  · rw [if_pos hb, if_pos (hbc.1 hb)]; exact jump_completesAt s a
  · rw [if_neg hb, if_neg (mt hbc.2 hb)]; exact finish_completesAt s p 1

/-- A rule that speaks of `acc` by its value says so of the value it holds. -/
theorem acc_condition_iff {s : State} {u : CellValue} (hu : s.acc = some u) (P : CellValue → Prop) :
    P u ↔ ∃ v, s.acc = some v ∧ P v := by
  simp [hu]

/-- R105: every instruction but HALT, when it completes, leaves `ip` at its branch target if the branch is taken and after its words
otherwise. -/
theorem Effect.completesAt {i : Instr} {s t : State} {p : Nat} (h : Effect i s p t) (hi : i ≠ .halt) :
    CompletesAt t ((branchTarget i s).getD (p + i.wordCount)) := by
  match i, h with
  | .halt, _ => exact absurd rfl hi
  | .inc _, h | .dec _, h => exact CellEffect.completesAt h
  | .push, ⟨_, _, h⟩ => exact h.completesAt
  | .pop, ⟨_, _, _, _, h⟩ => exact h ▸ finish_completesAt _ p 1
  | .store _, ⟨_, _, _, h⟩ => exact h ▸ finish_completesAt _ p 1
  | .br a, h => exact h ▸ jump_completesAt s a
  | .brn a, ⟨u, hu, h⟩ =>
    exact h ▸ branch_completesAt (Fin.ext_iff.symm.trans (acc_condition_iff hu (·.d0 = 1))) s a p
  | .brz a, ⟨u, hu, h⟩ => exact h ▸ branch_completesAt (acc_condition_iff hu (·.slice 1 4 = 0)) s a p
  | .brnf a, h | .brzf a, h => exact h ▸ branch_completesAt Iff.rfl s a p
  | .pushi _, h | .pushiw _, h => exact PushEffect.completesAt h
  | .pushn _, ⟨_, _, _, h⟩ | .pushnw _, ⟨_, _, _, h⟩ => exact h.completesAt
  | .ldi _, h | .ldiw _, h => exact LoadEffect.completesAt h
  | .load _, ⟨_, _, _, h⟩ | .ldn _, ⟨_, _, _, h⟩ | .ldnw _, ⟨_, _, _, h⟩ => exact h.completesAt
  | .addi _, h | .addiw _, h | .subi _, h | .subiw _, h | .muli _, h | .muliw _, h => exact ArithEffect.completesAt h
  | .add _, ⟨_, _, _, h⟩ | .sub _, ⟨_, _, _, h⟩ | .mul _, ⟨_, _, _, h⟩
  | .addn _, ⟨_, _, _, h⟩ | .subn _, ⟨_, _, _, h⟩ | .muln _, ⟨_, _, _, h⟩
  | .addnw _, ⟨_, _, _, h⟩ | .subnw _, ⟨_, _, _, h⟩ | .mulnw _, ⟨_, _, _, h⟩ => exact h.completesAt

/-- R110: HALT has no fault of its own. -/
theorem exec_halt_of_ip {s : State} {p : Nat} (hp : s.ip = some p) : exec .halt s = .next s.halt := by
  rw [exec_halt]; exact perform_of_ok hp rfl

/-! ### The obligations -/

/-- Settles O40: HALT completes in `s.halt`; any other instruction either faults, which leaves `ip`, or completes by
`Effect.completesAt`. -/
theorem instructionPointerRule : Obligations.InstructionPointerRule := by
  intro i s t p hp h
  by_cases hi : i = .halt
  · subst hi
    obtain rfl : s.halt = t := by rw [exec_halt_of_ip hp] at h; exact Host.Outcome.next.inj h
    exact .inr (.inl ⟨rfl, rfl, hp⟩)
  · obtain ⟨f, rfl⟩ | ⟨q, hq, he⟩ := exec_next h
    · exact .inr (.inr ⟨hi, ⟨f, rfl⟩, hp⟩)
    · obtain rfl : p = q := Option.some.inj (hp.symm.trans hq)
      obtain ⟨hstatus, hip⟩ := he.completesAt hi
      refine .inl ⟨hi, hstatus, hip.trans ?_⟩
      cases branchTarget i s <;> rfl

/-- Settles O11: the flags by the sign of the result, and their agreement with the two parts of the encoded word. -/
theorem setFlagsFollowsResult : Obligations.SetFlagsFollowsResult := by
  intro s r
  rw [setFlags_zero, setFlags_negative]
  refine ⟨fun h => ?_, fun h => ?_, fun h => ?_, fun hlo hhi => ⟨?_, ?_⟩, rfl⟩
  · simp [h]
  · simp [h, h.ne]
  · simp [h.ne', h.le]
  · rw [decide_eq_true_iff, Fin.ext_iff, encodeNum_d0_val]
    simp
  · have hm : (encodeNum r).slice 1 4 = r.natAbs := magnitude_encodeNum (by omega)
    rw [decide_eq_true_iff, hm, Int.natAbs_eq_zero]

end Sys2Proof.Machine
end

section
/-!
Proofs of the engine's obligations (40_engine.md R109, R110): the guards and the host calls in terms of the engine's three states, what a
step that passes the guards can end in, and HALT.
-/

namespace Sys2Proof.Machine

/-! ### The engine's states and the guards (R34, R100) -/

theorem engineState_eq_notLoaded (s : State) : engineState s = .notLoaded ↔ s.loaded = false := by
  unfold engineState; cases s.loaded <;> cases s.halted <;> simp

theorem engineState_eq_ready (s : State) : engineState s = .ready ↔ s.Runnable := by
  unfold engineState State.Runnable; cases s.loaded <;> cases s.halted <;> simp

theorem engineState_eq_halted (s : State) : engineState s = .halted ↔ s.loaded = true ∧ s.halted = .yes := by
  unfold engineState; cases s.loaded <;> cases s.halted <;> simp

theorem guardOf_of_notLoaded {s : State} (h : s.loaded = false) : guardOf s = some .notLoaded := if_pos h

theorem guardOf_of_halted {s : State} (hl : s.loaded = true) (hh : s.halted = .yes) : guardOf s = some .alreadyHalted := by
  simp [guardOf, hl, hh]

/-! ### `step` and `run` (R107, R108) -/

/-- R232, R233: a refused step changes the report only. -/
theorem step_of_guard {s : State} {g : Guard} (h : guardOf s = some g) : step s = .next (s.report (.refused g)) := by
  simp [step, h]

/-- A run ends with the first step whose status ends it. -/
theorem runFor_of_endsRun {s t : State} (n : Nat) (hs : step s = .next t) (ht : t.status.endsRun = true) :
    runFor (n + 1) s = .next t := by
  simp [runFor, hs, ht]

theorem run_of_guard {s : State} {g : Guard} (h : guardOf s = some g) : run s = .next (s.report (.refused g)) :=
  runFor_of_endsRun 99 (step_of_guard h) rfl

/-- Both calls that execute are refused by a guard, and alike. -/
theorem call_of_guard {s : State} {g : Guard} (h : guardOf s = some g) {c : HostCall} (hc : c = .step ∨ c = .run) :
    call c s = .next (s.report (.refused g)) := by
  obtain rfl | rfl := hc
  · exact step_of_guard h
  · exact run_of_guard h

theorem step_of_runnable {s : State} {i : Instr} (hr : s.Runnable) (hi : fetchInstr s.beginStep = .ok i) :
    step s = exec i s.beginStep := by
  simp [step, (guardOf_eq_none s).2 hr, hi]

theorem fetchInstr_of_oneWord {s : State} {p : Nat} {c : CellValue} {i : Instr} (hp : s.ip = some p) (hle : p ≤ 9999)
    (hc : s.mem.read p = some c) (hd : decodeHead c = .oneWord i) : fetchInstr s = .ok i := by
  simp [fetchInstr, fetchWord, hp, memRead_eq, show p < 10000 by omega, hc, hd]

theorem beginStep_of_halted_no {s : State} (h : s.halted = .no) : s.beginStep = s := by
  cases s; cases h; rfl

theorem beginStep_halted_of_runnable {s : State} (hr : s.Runnable) : s.beginStep.halted = .no := by
  obtain ⟨-, hh⟩ := hr
  rw [beginStep_halted]
  cases h : s.halted with
  | unset | no => rfl
  | yes => exact absurd h hh

/-! ### What an instruction does to the engine's state (R104 to R106) -/

/-- The fields that decide the engine's state, and `bp`, which no instruction writes (R31 to R33), are those of `s`. -/
def KeepsControl (s t : State) : Prop := t.bp = s.bp ∧ t.loaded = s.loaded ∧ t.halted = s.halted

theorem jump_keepsControl (s : State) (a : Nat) : KeepsControl s (s.jump a) := ⟨rfl, rfl, rfl⟩

theorem branch_keepsControl (b : Prop) [Decidable b] (s : State) (a p : Nat) :
    KeepsControl s (if b then s.jump a else s.finish p 1) := by
  split <;> exact ⟨rfl, rfl, rfl⟩

theorem CellEffect.keepsControl {a p : Nat} {d : Int} {s t : State} (h : CellEffect a d s p t) : KeepsControl s t := by
  obtain ⟨_, _, _, _, _, _, rfl⟩ := h
  exact ⟨rfl, rfl, rfl⟩

theorem PushEffect.keepsControl {v : CellValue} {n p : Nat} {s t : State} (h : PushEffect v n s p t) : KeepsControl s t := by
  obtain ⟨_, _, rfl⟩ := h
  exact ⟨rfl, rfl, rfl⟩

theorem LoadEffect.keepsControl {c : CellValue} {n p : Nat} {s t : State} (h : LoadEffect c n s p t) : KeepsControl s t := by
  obtain rfl := h
  exact ⟨rfl, rfl, rfl⟩

theorem ArithEffect.keepsControl {op : ArithOp} {c : CellValue} {n p : Nat} {s t : State} (h : ArithEffect op c n s p t) :
    KeepsControl s t := by
  obtain ⟨_, _, _, _, _, _, rfl⟩ := h
  exact ⟨rfl, rfl, rfl⟩

/-- No instruction but HALT writes a field that decides the engine's state. -/
theorem Effect.keepsControl {i : Instr} {s t : State} {p : Nat} (h : Effect i s p t) (hi : i ≠ .halt) : KeepsControl s t := by
  match i, h with
  | .halt, _ => exact absurd rfl hi
  | .inc _, h | .dec _, h => exact CellEffect.keepsControl h
  | .push, ⟨_, _, h⟩ => exact h.keepsControl
  | .pop, ⟨_, _, _, _, h⟩ | .store _, ⟨_, _, _, h⟩ => exact h ▸ ⟨rfl, rfl, rfl⟩
  | .br a, h => exact h ▸ jump_keepsControl s a
  | .brn a, ⟨_, _, h⟩ | .brz a, ⟨_, _, h⟩ | .brnf a, h | .brzf a, h => exact h ▸ branch_keepsControl _ s a p
  | .pushi _, h | .pushiw _, h => exact PushEffect.keepsControl h
  | .pushn _, ⟨_, _, _, h⟩ | .pushnw _, ⟨_, _, _, h⟩ => exact h.keepsControl
  | .ldi _, h | .ldiw _, h => exact LoadEffect.keepsControl h
  | .load _, ⟨_, _, _, h⟩ | .ldn _, ⟨_, _, _, h⟩ | .ldnw _, ⟨_, _, _, h⟩ => exact h.keepsControl
  | .addi _, h | .addiw _, h | .subi _, h | .subiw _, h | .muli _, h | .muliw _, h => exact ArithEffect.keepsControl h
  | .add _, ⟨_, _, _, h⟩ | .sub _, ⟨_, _, _, h⟩ | .mul _, ⟨_, _, _, h⟩
  | .addn _, ⟨_, _, _, h⟩ | .subn _, ⟨_, _, _, h⟩ | .muln _, ⟨_, _, _, h⟩
  | .addnw _, ⟨_, _, _, h⟩ | .subnw _, ⟨_, _, _, h⟩ | .mulnw _, ⟨_, _, _, h⟩ => exact h.keepsControl

/-- R106: an instruction ends in HALT's end, in a fault or with `Ok`; only the first two write `halted`, and none writes `loaded`. -/
theorem exec_ends {i : Instr} {s t : State} (h : exec i s = .next t) :
    t.loaded = s.loaded ∧ (t.EndedWell ∨ t.Faulted ∨ t.status = .ok ∧ t.halted = s.halted) := by
  obtain ⟨f, rfl⟩ | ⟨p, -, he⟩ := exec_next h
  · exact ⟨rfl, .inr (.inl ⟨rfl, f, rfl⟩)⟩
  · by_cases hi : i = .halt
    · subst hi
      obtain rfl : t = s.halt := he
      exact ⟨rfl, .inl ⟨rfl, rfl⟩⟩
    · obtain ⟨-, hloaded, hhalted⟩ := he.keepsControl hi
      exact ⟨hloaded, .inr (.inr ⟨(he.completesAt hi).1, hhalted⟩)⟩

/-- R106, R107: how a step that passes both guards ends. -/
theorem step_ends {s t : State} (hr : s.Runnable) (h : step s = .next t) :
    t.loaded = true ∧ (t.EndedWell ∨ t.Faulted ∨ t.status = .ok ∧ t.halted = .no) := by
  obtain ⟨g, hg, -⟩ | ⟨-, f, -, rfl⟩ | ⟨-, i, -, he⟩ := step_next h
  · rw [(guardOf_eq_none s).2 hr] at hg; cases hg
  · exact ⟨hr.1, .inr (.inl ⟨rfl, f, rfl⟩)⟩
  · rw [← hr.1, ← beginStep_halted_of_runnable hr]
    exact exec_ends he

/-! ### The host's operations (R265, R266, R268) -/

/-- R265: after `reset()` every cell of the machine holds `"00000"`. -/
theorem hostReset_read (s : State) {a : Nat} (h : a ≤ 9999) : s.hostReset.mem.read a = some ⟨0, 0, 0, 0, 0⟩ :=
  read_zeroCells 10000 0 a (Nat.zero_le a) (by omega)

/-- A loaded machine is runnable after `reset()`, whatever `halted` held. -/
theorem hostReset_runnable {s : State} (h : s.loaded = true) : s.hostReset.Runnable := ⟨h, Halted.noConfusion⟩

/-- Everything `load` can answer (R266), up to the memory it leaves. -/
theorem load_cases (s : State) (file : Option (List Line)) :
    (∃ m, s.load file = { s with mem := m, loaded := true, halted := .no, status := .loadOk }) ∨
    ∃ m, s.load file = { s with mem := m, loaded := false, status := .loadError } := by
  cases file with
  | none => exact .inr ⟨s.mem, rfl⟩
  | some ls =>
    simp only [State.load]
    split
    · exact .inl ⟨_, rfl⟩
    · exact .inr ⟨_, rfl⟩

/-- R268: `setStartAddress` writes `ip` only. -/
theorem setStartAddress_frame (s : State) (a : Int) :
    s.setStartAddress a = { s with ip := (s.setStartAddress a).ip, status := (s.setStartAddress a).status } := by
  unfold State.setStartAddress
  split <;> rfl

/-! ### HALT (R110) -/

/-- R74: of the words led by `00` only `"00000"` decodes, and it is HALT. -/
theorem decodeHead_led00 {c : CellValue} (h0 : c.d0 = 0) (h1 : c.d1 = 0) :
    decodeHead c = if c = ⟨0, 0, 0, 0, 0⟩ then .oneWord .halt else .unknown := by
  have hfield : fieldA3 c = 0 ↔ c = ⟨0, 0, 0, 0, 0⟩ := by
    refine ⟨fun h => ?_, fun h => h ▸ rfl⟩
    rw [← wordA3_field c (congrArg Fin.val h0), h1, h]
    rfl
  rw [decodeHead_led0 (congrArg Fin.val h0)]
  simp [decodeLed0, h1, hfield]

theorem exec_halt_halted {s t : State} (h : exec .halt s = .next t) : t.loaded = s.loaded ∧ t.halted = .yes := by
  obtain ⟨f, rfl⟩ | ⟨p, -, he⟩ := exec_next h
  · exact ⟨rfl, rfl⟩
  · obtain rfl : t = s.halt := he
    exact ⟨rfl, rfl⟩

/-- R265: after `reset()` the next step executes a HALT wherever `ip` is. -/
theorem step_hostReset {s : State} {p : Nat} (hl : s.loaded = true) (hp : s.ip = some p) (hle : p ≤ 9999) :
    step s.hostReset = .next s.hostReset.halt := by
  have hbegin : s.hostReset.beginStep = s.hostReset := beginStep_of_halted_no rfl
  have hfetch : fetchInstr s.hostReset = .ok .halt :=
    fetchInstr_of_oneWord hp hle (hostReset_read s hle) (by rw [decodeHead_led00 rfl rfl, if_pos rfl])
  calc step s.hostReset = exec .halt s.hostReset.beginStep :=
        step_of_runnable (hostReset_runnable hl) (hbegin.symm ▸ hfetch)
    _ = .next s.hostReset.halt := by rw [hbegin]; exact exec_halt_of_ip hp

/-! ### The obligations -/

/-- Settles O16: HALT's own effect, its only word, the refusal afterwards, and the two recoveries. -/
theorem haltStopsTheMachine : Obligations.HaltStopsTheMachine := by
  refine ⟨fun s p hp => exec_halt_of_ip hp, fun c h0 h1 => ?_, fun s t hl ht => ?_⟩
  · rw [decodeHead_led00 h0 h1]
    by_cases hc : c = ⟨0, 0, 0, 0, 0⟩ <;> simp [hc]
  · obtain ⟨hloaded, hhalted⟩ := exec_halt_halted ht
    have hl' : t.loaded = true := hloaded.trans hl
    refine ⟨step_of_guard (guardOf_of_halted hl' hhalted), hostReset_runnable hl', fun file hf => ?_,
      fun a ha => hostReset_read t ha, fun p hp hle => ?_⟩
    · obtain ⟨m, he⟩ | ⟨m, he⟩ := load_cases t file
      · rw [he]; exact ⟨⟨rfl, Halted.noConfusion⟩, rfl⟩
      · rw [he] at hf; cases hf
    · have hip : t.ip = some p := by
        rw [exec_halt_of_ip hp] at ht
        cases ht
        exact hp
      exact ⟨step_hostReset hl' hip hle, hip⟩

/-- Settles O49: a row for each state and call, from the guards, `step_ends` and the host operations' answers. -/
theorem engineTransitions : Obligations.EngineTransitions := by
  intro s
  refine ⟨fun hs => ⟨fun c hc => ?_, fun t ht => ?_⟩, fun hs t ht => ?_, fun hs c hc => ?_, fun hs t ht => ?_, fun file t ht => ?_,
    fun a t ht => ?_⟩
  case refine_1 => exact call_of_guard (guardOf_of_notLoaded ((engineState_eq_notLoaded s).1 hs)) hc
  case refine_2 =>
    cases ht
    exact ⟨(engineState_eq_notLoaded _).2 ((engineState_eq_notLoaded s).1 hs), rfl, fun a ha => hostReset_read s ha⟩
  case refine_3 =>
    obtain ⟨hl, ⟨hh, hst⟩ | ⟨hh, hst⟩ | ⟨hst, hh⟩⟩ := step_ends ((engineState_eq_ready s).1 hs) ht
    · exact .inr ⟨.inl hst, (engineState_eq_halted t).2 ⟨hl, hh⟩⟩
    · exact .inr ⟨.inr hst, (engineState_eq_halted t).2 ⟨hl, hh⟩⟩
    · exact .inl ⟨hst, (engineState_eq_ready t).2 ⟨hl, by simp [hh]⟩⟩
  case refine_4 =>
    obtain ⟨hl, hh⟩ := (engineState_eq_halted s).1 hs
    exact call_of_guard (guardOf_of_halted hl hh) hc
  case refine_5 =>
    have hl : s.loaded = true := Bool.of_not_eq_false (mt (engineState_eq_notLoaded s).2 hs)
    cases ht
    exact ⟨(engineState_eq_ready _).2 (hostReset_runnable hl), rfl, fun a ha => hostReset_read s ha⟩
  case refine_6 =>
    obtain rfl : s.load file = t := Host.Outcome.next.inj ht
    obtain ⟨m, he⟩ | ⟨m, he⟩ := load_cases s file
    · rw [he]; exact .inl ⟨rfl, rfl, rfl⟩
    · rw [he]; exact .inr ⟨rfl, rfl, rfl, rfl⟩
  case refine_7 =>
    obtain rfl : s.setStartAddress a = t := Host.Outcome.next.inj ht
    have hframe := setStartAddress_frame s a
    exact ⟨by rw [hframe]; rfl, hframe⟩

end Sys2Proof.Machine
end

section
/-!
Proofs of the stack's obligations (42_stack.md R131, R133 to R135): when `Push` and `Pop` succeed, what PUSH and POP do to `sp`, and the
protection state this leaves.
-/

namespace Sys2Proof.Machine

/-! ### `Push` and `Pop` (R131, R132) -/

theorem push_of_pos {s : State} (v : CellValue) (hpos : 0 < s.sp) (hle : s.sp ≤ 9999) :
    push s v = .ok ((s.setMem (s.mem.write (s.sp - 1) v)).setSp (s.sp - 1)) :=
  (push_ok s _ v).2 ⟨hpos, by omega, rfl⟩

/-- R132: the read of a `Pop` that passes its check cannot fault, because every live stack cell has been written. -/
theorem pop_of_lt {s : State} (hs : s.Inv) (hlt : s.sp < s.bp) :
    ∃ v, s.mem.read s.sp = some v ∧ pop s = .ok (v, s.setSp (s.sp + 1)) := by
  obtain ⟨v, hv⟩ := Option.ne_none_iff_exists'.1 (hs.stack_written s.sp le_rfl hlt)
  have hbp := hs.bp_eq
  exact ⟨v, hv, (pop_ok s _ v).2 ⟨hlt, by omega, hv, rfl⟩⟩

/-! ### PUSH and POP (R134, R135) -/

theorem exec_push_of_pos {s : State} {p : Nat} {v : CellValue} (hp : s.ip = some p) (hv : s.acc = some v) (hpos : 0 < s.sp)
    (hle : s.sp ≤ 9999) :
    exec .push s = .next (((s.setMem (s.mem.write (s.sp - 1) v)).setSp (s.sp - 1)).finish p 1) := by
  rw [exec_push]
  exact perform_of_ok hp (by rw [(accRead_ok s v).2 hv, ok_bind, push_of_pos v hpos hle, ok_bind])

theorem exec_push_of_sp_zero {s : State} {p : Nat} {v : CellValue} (hp : s.ip = some p) (hv : s.acc = some v) (h0 : s.sp = 0) :
    exec .push s = .next (s.takeFault (.stackOverflow 0)) := by
  rw [exec_push]
  exact perform_of_error hp (by rw [(accRead_ok s v).2 hv, ok_bind, push_error_of_sp_zero s v h0, error_bind])

theorem exec_pop_of_pop_ok {s t : State} {p : Nat} {v : CellValue} (hp : s.ip = some p) (h : pop s = .ok (v, t)) :
    exec .pop s = .next ((t.setAcc v).finish p 1) := by
  rw [exec_pop]
  exact perform_of_ok hp (by rw [h, ok_bind])

theorem exec_pop_of_bp_le {s : State} {p : Nat} (hp : s.ip = some p) (hle : s.bp ≤ s.sp) :
    exec .pop s = .next (s.takeFault (.stackUnderflow s.sp)) := by
  rw [exec_pop]
  exact perform_of_error hp (by rw [(pop_error s _).2 (.inl ⟨hle, rfl⟩), error_bind])

/-! ### The protection states (R133) -/

theorem stackState_eq_empty (s : State) : stackState s = .empty ↔ s.sp = s.bp := by
  by_cases h : s.sp = s.bp
  · simp [stackState, h]
  · rw [stackState, if_neg h]
    split <;> simp [h]

theorem stackState_of_lt {s : State} (h : s.sp < s.bp) : stackState s = if s.sp = 0 then .full else .partly := if_neg h.ne

theorem stackState_of_pos {s : State} (h : 0 < s.sp) : stackState s = if s.sp = s.bp then .empty else .partly := by
  rw [stackState, if_neg h.ne']

theorem stackState_eq_full {s : State} (hs : s.Inv) : stackState s = .full ↔ s.sp = 0 := by
  have hbp := hs.bp_eq
  obtain h0 | hpos := Nat.eq_zero_or_pos s.sp
  · simp [stackState_of_lt (show s.sp < s.bp by omega), h0]
  · rw [stackState_of_pos hpos]
    split <;> simp [hpos.ne']

theorem stackState_eq_partly {s : State} (hs : s.Inv) : stackState s = .partly ↔ 0 < s.sp ∧ s.sp < s.bp := by
  obtain heq | hlt := hs.sp_le.eq_or_lt
  · simp [(stackState_eq_empty s).2 heq, heq]
  · rw [stackState_of_lt hlt]
    split <;> simp [Nat.pos_iff_ne_zero, *]

/-- A PUSH with room below `sp` moves to Full from `sp` = 1 and to Partial from anywhere above. -/
theorem exec_push_moves {s : State} {p : Nat} {v : CellValue} (hs : s.Inv) (hp : s.ip = some p) (hv : s.acc = some v)
    (hpos : 0 < s.sp) :
    ∃ t, exec .push s = .next t ∧ t.status = .ok ∧ t.sp = s.sp - 1 ∧ stackState t = if s.sp = 1 then .full else .partly := by
  have hle := hs.sp_le
  have hbp := hs.bp_eq
  refine ⟨_, exec_push_of_pos hp hv hpos (by omega), rfl, rfl, ?_⟩
  rw [stackState_of_lt (by simp; omega)]
  exact if_congr (by simp; omega) rfl rfl

/-- POP from a stack that holds something moves to Empty from `sp` = 9998 and to Partial from anywhere below. -/
theorem exec_pop_moves {s : State} {p : Nat} (hs : s.Inv) (hp : s.ip = some p) (hlt : s.sp < s.bp) :
    ∃ t, exec .pop s = .next t ∧ t.status = .ok ∧ t.sp = s.sp + 1 ∧ stackState t = if s.sp = 9998 then .empty else .partly := by
  obtain ⟨v, -, hpop⟩ := pop_of_lt hs hlt
  have hbp := hs.bp_eq
  refine ⟨_, exec_pop_of_pop_ok hp hpop, rfl, rfl, ?_⟩
  rw [stackState_of_pos (by simp)]
  exact if_congr (by simp [hbp]) rfl rfl

/-! ### The obligations -/

/-- Settles O12: the check at `sp` = 0, and the one cell written below it. -/
theorem pushWritesBelowStackPointer : Obligations.PushWritesBelowStackPointer :=
  fun s v => ⟨push_error_of_sp_zero s v, fun hpos hle =>
    ⟨s.mem.write (s.sp - 1) v, push_of_pos v hpos hle, Memory.read_write s.mem (s.sp - 1) v⟩⟩

/-- Settles O14: the three states by `sp`, the moves of PUSH and POP between them, and the two faults, which keep `sp` and `bp`. -/
theorem stackProtectionStates : Obligations.StackProtectionStates := by
  intro s p hs hp
  have hbp := hs.bp_eq
  refine ⟨⟨stackState_eq_empty s, stackState_eq_partly hs, stackState_eq_full hs⟩, fun hempty => ?_, fun hpartly => ?_,
    fun hfull => ?_⟩
  case refine_1 =>
    have hsp : s.sp = 9999 := ((stackState_eq_empty s).1 hempty).trans hbp
    refine ⟨hsp, fun v hv => ?_, ?_, hempty⟩
    · simpa [hsp] using exec_push_moves hs hp hv (by omega)
    · rw [exec_pop_of_bp_le hp (by omega), hsp]; rfl
  case refine_2 =>
    obtain ⟨hpos, hlt⟩ := (stackState_eq_partly hs).1 hpartly
    refine ⟨hpos, by omega, fun v hv => ?_, ?_⟩
    · obtain ⟨t, ht, hok, -, hstate⟩ := exec_push_moves hs hp hv hpos
      exact ⟨t, ht, hok, hstate⟩
    · obtain ⟨t, ht, hok, -, hstate⟩ := exec_pop_moves hs hp hlt
      exact ⟨t, ht, hok, hstate⟩
  case refine_3 =>
    have hsp : s.sp = 0 := (stackState_eq_full hs).1 hfull
    refine ⟨fun v hv => ⟨exec_push_of_sp_zero hp hv hsp, hfull⟩, ?_⟩
    simpa [hsp] using exec_pop_moves hs hp (by omega)

end Sys2Proof.Machine
end

section
/-!
Proofs of the branch's obligation (45_branch.md R171): BR's effect, its words, and BR to itself, where `step` has a fixed point, so that
any number of steps stays there and `run()` ends at its bound.
-/

namespace Sys2Proof.Machine

/-! ### Running at a fixed point of `step` (R107, R108) -/

theorem coreRun_succ_of_step {s t : State} (n : Nat) (hs : step s = .next t) :
    Host.Core.run Sys2Proof.core (n + 1) s = Host.Core.run Sys2Proof.core n t := by
  simp [Host.Core.run, Sys2Proof.core, hs]

theorem coreRun_of_step_self {t : State} (h : step t = .next t) (n : Nat) : Host.Core.run Sys2Proof.core n t = .next t := by
  induction n with
  | zero => rfl
  | succ n ih => rw [coreRun_succ_of_step n h, ih]

/-- A run goes on after a step that reports `Ok`. -/
theorem runFor_succ_of_ok {s t : State} (n : Nat) (hs : step s = .next t) (ht : t.status = .ok) :
    runFor (n + 1) s = runFor n t := by
  simp [runFor, hs, ht, Status.endsRun]

theorem runFor_of_step_self {t : State} (h : step t = .next t) (ht : t.status = .ok) (n : Nat) :
    runFor n t = .next (t.report .boundExhausted) := by
  induction n with
  | zero => rfl
  | succ n ih => rw [runFor_succ_of_ok n h ht, ih]

theorem run_of_step_self {s t : State} (hs : step s = .next t) (h : step t = .next t) (ht : t.status = .ok) :
    run s = .next (t.report .boundExhausted) := by
  calc run s = runFor 99 t := runFor_succ_of_ok 99 hs ht
    _ = .next (t.report .boundExhausted) := runFor_of_step_self h ht 99

/-! ### BR (R171) -/

theorem exec_br_of_ip {s : State} {p : Nat} (hp : s.ip = some p) (a : Nat) : exec (.br a) s = .next (s.jump a) := by
  rw [exec_br]; exact perform_of_ok hp rfl

theorem decodeHead_led6 {c : CellValue} (h : c.d0.val = 6) : decodeHead c = .oneWord (.br (fieldA4 c)) := by
  simp only [decodeHead, h]

theorem jump_ip_self {s : State} {p : Nat} (hp : s.ip = some p) : s.jump p = s.report .ok := by
  rw [State.jump, ← hp]; rfl

theorem beginStep_of_runnable {s : State} (hr : s.Runnable) : s.beginStep = s.clearHalted :=
  congrArg (fun h => { s with halted := h }) (beginStep_halted_of_runnable hr)

/-- The next fetch reads, at address `p`, a BR to `p` itself. -/
def AtSelfBranch (s : State) (p : Nat) : Prop :=
  s.ip = some p ∧ p ≤ 9999 ∧ ∃ c, s.mem.read p = some c ∧ decodeHead c = .oneWord (.br p)

theorem step_of_atSelfBranch {s : State} {p : Nat} (hr : s.Runnable) (h : AtSelfBranch s p) :
    step s = .next (s.clearHalted.report .ok) := by
  obtain ⟨hp, hle, c, hc, hd⟩ := h
  have hfetch : fetchInstr s.beginStep = .ok (.br p) := fetchInstr_of_oneWord hp hle hc hd
  calc step s = exec (.br p) s.beginStep := step_of_runnable hr hfetch
    _ = .next (s.clearHalted.jump p) := by rw [beginStep_of_runnable hr]; exact exec_br_of_ip (s := s.clearHalted) hp p
    _ = .next (s.clearHalted.report .ok) := by rw [jump_ip_self (s := s.clearHalted) hp]

/-- The state one BR to itself leaves is runnable and at the same BR, so the step from it gives it back. -/
theorem step_self_of_atSelfBranch {s : State} {p : Nat} (hr : s.Runnable) (h : AtSelfBranch s p) :
    step (s.clearHalted.report .ok) = .next (s.clearHalted.report .ok) :=
  step_of_atSelfBranch (s := s.clearHalted.report .ok) ⟨hr.1, Halted.noConfusion⟩ h

/-! ### The obligation -/

/-- Settles O21: BR is a jump, the words led by 6 are BRs, and BR to itself is a fixed point of `step` reached after one step. -/
theorem unconditionalBranch : Obligations.UnconditionalBranch := by
  refine ⟨fun s p a hp => exec_br_of_ip hp a, fun d1 d2 d3 d4 => ?_, fun s p c hr hp hle hc hd => ?_⟩
  · rw [decodeHead_led6 rfl, fieldA4_eq]
  · have hat : AtSelfBranch s p := ⟨hp, hle, c, hc, hd⟩
    have hstep := step_of_atSelfBranch hr hat
    have hself := step_self_of_atSelfBranch hr hat
    refine ⟨fun n => ?_, run_of_step_self hstep hself rfl⟩
    rw [coreRun_succ_of_step n hstep]
    exact coreRun_of_step_self hself n

end Sys2Proof.Machine
end

section
/-!
Proof of the obligation on the refusals (60_exceptions.md R232, R233): the guards, taken in their order, decide both calls that execute.
-/

namespace Sys2Proof.Machine

/-- Settles O42: `NotLoaded` is taken first, whatever `halted` holds, then `AlreadyHalted`; either guard ends `step` and `run` alike. -/
theorem refusedStepChangesNothing : Obligations.RefusedStepChangesNothing := by
  refine fun s => ⟨fun hl => ?notLoaded, fun hl hh => ?alreadyHalted⟩
  case notLoaded =>
    have hg : guardOf s = some .notLoaded := guardOf_of_notLoaded hl
    exact ⟨step_of_guard hg, run_of_guard hg⟩
  case alreadyHalted =>
    have hg : guardOf s = some .alreadyHalted := guardOf_of_halted hl hh
    exact ⟨step_of_guard hg, run_of_guard hg⟩

end Sys2Proof.Machine
end

section
/-!
Proofs of the encoding's obligations (30_encoding.md sections 1 to 5): reading back what `encode` writes, the one encoding of whatever
decodes, the illegal cell values and the length the instruction word tells. Each goes format by format.
-/

namespace Sys2Proof

/-! ### Reading the front of a list of cells (R70) -/

theorem decodeWords_of_oneWord {c : CellValue} {i : Instr} (h : decodeHead c = .oneWord i) (rest : List CellValue) :
    decodeWords (c :: rest) = .ok (i, rest) := by
  simp [decodeWords, h]

theorem decodeWords_of_twoWord {c : CellValue} {op : Fam9Op} {b : Bool} (h : decodeHead c = .twoWord op b) (w : CellValue)
    (rest : List CellValue) : decodeWords (c :: w :: rest) = .ok (fam9Word op b w, rest) := by
  simp [decodeWords, h]

/-- What a list of cells that decodes looks like. -/
theorem decodeWords_ok {ws : List CellValue} {i : Instr} {rest : List CellValue} (h : decodeWords ws = .ok (i, rest)) :
    (∃ c, decodeHead c = .oneWord i ∧ ws = c :: rest) ∨
    ∃ c op b w, decodeHead c = .twoWord op b ∧ i = fam9Word op b w ∧ ws = c :: w :: rest := by
  unfold decodeWords at h
  split at h
  · cases h
  · split at h
    · cases h
    · rename_i hd; cases h; exact .inl ⟨_, hd, rfl⟩
    · rename_i hd
      split at h
      · cases h
      · cases h; exact .inr ⟨_, _, _, _, hd, rfl, rfl⟩

/-! ### Family 9 read back (R77 to R81) -/

theorem decodeWords_fam9_shortImmediate (op : Fam9Op) {xx : Nat} (h : xx ≤ 99) (rest : List CellValue) :
    decodeWords (fam9Instr op .shortImmediate xx :: rest) = .ok (fam9Short op false xx, rest) :=
  decodeWords_of_oneWord ((decodeHead_fam9 op _ xx).trans (decodeFam9_shortImmediate op h)) rest

theorem decodeWords_fam9_shortIndirect (op : Fam9Op) {xx : Nat} (h : xx ≤ 99) (rest : List CellValue) :
    decodeWords (fam9Instr op .shortIndirect xx :: rest) = .ok (fam9Short op true xx, rest) :=
  decodeWords_of_oneWord ((decodeHead_fam9 op _ xx).trans (decodeFam9_shortIndirect op h)) rest

theorem decodeWords_fam9_wordImmediate (op : Fam9Op) (w : CellValue) (rest : List CellValue) :
    decodeWords (fam9Instr op .wordImmediate 0 :: w :: rest) = .ok (fam9Word op false w, rest) :=
  decodeWords_of_twoWord ((decodeHead_fam9 op _ 0).trans (decodeFam9_wordImmediate op)) w rest

theorem decodeWords_fam9_wordIndirect (op : Fam9Op) (w : CellValue) (rest : List CellValue) :
    decodeWords (fam9Instr op .wordIndirect 0 :: w :: rest) = .ok (fam9Word op true w, rest) :=
  decodeWords_of_twoWord ((decodeHead_fam9 op _ 0).trans (decodeFam9_wordIndirect op)) w rest

/-! ### The formats with an address field read back (R71, R76) -/

/-- A word whose `Decode` is an instruction with a field reads back as the instruction with that field's value. -/
theorem decodeWords_of_field {c : CellValue} {mk : Nat → Instr} {n a : Nat} (hd : decodeHead c = .oneWord (mk n)) (hn : n = a)
    (rest : List CellValue) : decodeWords (c :: rest) = .ok (mk a, rest) :=
  hn ▸ decodeWords_of_oneWord hd rest

/-- Settles O4: the head of every encoding decodes by its leading digits, and its field reads back as the operand. -/
theorem decodeReadsEncode : Obligations.DecodeReadsEncode := by
  intro i rest h
  cases i with
  | halt | push | pop => rfl
  | inc a | dec a =>
    exact decodeWords_of_field rfl (fieldA3_wordA3 _ (by simpa [Instr.wellFormed] using h)) rest
  | load a | store a | add a | sub a | mul a | br a | brn a | brz a =>
    exact decodeWords_of_field rfl (fieldA4_wordA4 _ (by simpa [Instr.wellFormed] using h)) rest
  | brnf a | brzf a =>
    exact decodeWords_of_field rfl (fieldA2_wordA2 _ (by simpa [Instr.wellFormed] using h)) rest
  | pushi xx | ldi xx | addi xx | subi xx | muli xx =>
    exact decodeWords_fam9_shortImmediate _ (by simpa [Instr.wellFormed] using h) rest
  | pushn xx | ldn xx | addn xx | subn xx | muln xx =>
    exact decodeWords_fam9_shortIndirect _ (by simpa [Instr.wellFormed] using h) rest
  | pushiw w | ldiw w | addiw w | subiw w | muliw w => exact decodeWords_fam9_wordImmediate _ w rest
  | pushnw w | ldnw w | addnw w | subnw w | mulnw w => exact decodeWords_fam9_wordIndirect _ w rest

/-! ### Every word is the encoding of what it decodes to (R71, R74, D2, D3) -/

theorem wordA4_of_digits {c : CellValue} {k : Digit} (h0 : c.d0.val = k.val) : wordA4 k (fieldA4 c) = c := by
  rw [← Fin.ext h0, wordA4_field]

theorem wordA3_of_digits {c : CellValue} {k : Digit} {a : Nat} (h0 : c.d0.val = 0) (h1 : c.d1.val = k.val) (ha : fieldA3 c = a) :
    wordA3 k a = c := by
  rw [← Fin.ext h1, ← ha, wordA3_field c h0]

theorem wordA2_of_digits {c : CellValue} {k : Digit} (h0 : c.d0.val = 9) (h1 : c.d1.val = 0) (h2 : c.d2.val = k.val) :
    wordA2 k (fieldA2 c) = c := by
  rw [← Fin.ext h2, wordA2_field c h0 h1]

theorem encode_of_decodeLed0 {c : CellValue} {i : Instr} (h0 : c.d0.val = 0) (h : decodeLed0 c = .oneWord i) : encode i = [c] := by
  unfold decodeLed0 at h
  split at h
  case h_2 h1 | h_3 h1 => cases h; exact congrArg (fun c => [c]) (wordA3_of_digits h0 h1 rfl)
  case h_1 h1 | h_4 h1 | h_5 h1 =>
    split at h
    · rename_i hz; cases h; exact congrArg (fun c => [c]) (wordA3_of_digits h0 h1 hz)
    · cases h
  case h_6 => cases h

theorem decodeLed0_ne_twoWord (c : CellValue) (op : Fam9Op) (b : Bool) : decodeLed0 c ≠ .twoWord op b := by
  intro h
  unfold decodeLed0 at h
  split at h
  case h_1 | h_4 | h_5 => split at h <;> cases h
  case h_2 | h_3 | h_6 => cases h

theorem encode_of_decodeFlagBranch {c : CellValue} {i : Instr} (h0 : c.d0.val = 9) (h1 : c.d1.val = 0)
    (h : decodeFlagBranch c = .oneWord i) : encode i = [c] := by
  unfold decodeFlagBranch at h
  split at h
  case h_1 h2 | h_2 h2 => cases h; exact congrArg (fun c => [c]) (wordA2_of_digits h0 h1 h2)
  case h_3 => cases h

theorem encode_fam9Short (op : Fam9Op) (b : Bool) (xx : Nat) :
    encode (fam9Short op b xx) = [fam9Instr op (if b then .shortIndirect else .shortImmediate) xx] := by
  cases op <;> cases b <;> rfl

theorem encode_fam9Word (op : Fam9Op) (b : Bool) (w : CellValue) :
    encode (fam9Word op b w) = [fam9Instr op (if b then .wordIndirect else .wordImmediate) 0, w] := by
  cases op <;> cases b <;> rfl

/-- The digits of a word that selects an operation and a mode of family 9, and so the word. -/
theorem fam9Instr_of_selected {c : CellValue} {op : Fam9Op} {m : Fam9Mode} {xx : Nat} (h0 : c.d0.val = 9)
    (ho : fam9OpOf (fam9OpDigit c) = some op) (hm : fam9ModeOf (fam9ModeDigit c) = some m) (hx : fieldA2 c = xx) :
    fam9Instr op m xx = c := by
  rw [← hx]
  exact fam9Instr_field c op m h0 ((slice_1_1 c).symm.trans (fam9OpOf_some ho)) ((slice_2_2 c).symm.trans (fam9ModeOf_some hm))

/-- What family 9 decodes is the encoding of the word read, with its operand word where it has one. -/
theorem encode_of_decodeFam9 {c : CellValue} (h0 : c.d0.val = 9) :
    (∀ i, decodeFam9 c = .oneWord i → encode i = [c]) ∧
    ∀ op b w, decodeFam9 c = .twoWord op b → encode (fam9Word op b w) = [c, w] := by
  unfold decodeFam9
  split
  case h_1 ho hm | h_3 ho hm =>
    refine ⟨fun i h => ?_, fun _ _ _ h => by cases h⟩
    cases h
    rw [encode_fam9Short]
    exact congrArg (fun c => [c]) (fam9Instr_of_selected h0 ho hm rfl)
  case h_2 ho hm | h_4 ho hm =>
    split
    · rename_i hz
      refine ⟨fun _ h => (by cases h), fun op b w h => ?_⟩
      cases h
      rw [encode_fam9Word]
      exact congrArg (fun c => [c, w]) (fam9Instr_of_selected h0 ho hm hz)
    · exact ⟨fun _ h => (by cases h), fun _ _ _ h => (by cases h)⟩
  case h_5 => exact ⟨fun _ h => (by cases h), fun _ _ _ h => (by cases h)⟩

/-- The four sorts of words `Decode` tells by their leading digits (R74): led by 0, by 1 to 8, by 90, and by 9 with another digit. -/
theorem led_cases (c : CellValue) :
    c.d0.val = 0 ∨ (1 ≤ c.d0.val ∧ c.d0.val ≤ 8) ∨ (c.d0.val = 9 ∧ c.d1.val = 0) ∨ (c.d0.val = 9 ∧ c.d1.val ≠ 0) := by
  have := c.d0.lt_ten
  omega

theorem decodeHead_led90 {c : CellValue} (h0 : c.d0.val = 9) (h1 : c.d1.val = 0) : decodeHead c = decodeFlagBranch c := by
  rw [decodeHead_led9 h0, if_pos h1]

theorem decodeHead_led9_pos {c : CellValue} (h0 : c.d0.val = 9) (h1 : c.d1.val ≠ 0) : decodeHead c = decodeFam9 c := by
  rw [decodeHead_led9 h0, if_neg h1]

theorem encode_of_decodeHead_A4 {c : CellValue} {i : Instr} (h0 : 1 ≤ c.d0.val ∧ c.d0.val ≤ 8) (h : decodeHead c = .oneWord i) :
    encode i = [c] := by
  obtain ⟨hlo, hhi⟩ := h0
  unfold decodeHead at h
  generalize hd : c.d0.val = n at h hlo hhi
  interval_cases n <;> (cases h; exact congrArg (fun c => [c]) (wordA4_of_digits hd))

theorem encode_of_decodeHead_oneWord {c : CellValue} {i : Instr} (h : decodeHead c = .oneWord i) : encode i = [c] := by
  obtain h0 | h0 | ⟨h0, h1⟩ | ⟨h0, h1⟩ := led_cases c
  · exact encode_of_decodeLed0 h0 (decodeHead_led0 h0 ▸ h)
  · exact encode_of_decodeHead_A4 h0 h
  · exact encode_of_decodeFlagBranch h0 h1 (decodeHead_led90 h0 h1 ▸ h)
  · exact (encode_of_decodeFam9 h0).1 i (decodeHead_led9_pos h0 h1 ▸ h)

/-- Only family 9 has two-word instructions (R77). -/
theorem encode_of_decodeHead_twoWord {c : CellValue} {op : Fam9Op} {b : Bool} (w : CellValue) (h : decodeHead c = .twoWord op b) :
    encode (fam9Word op b w) = [c, w] := by
  obtain h0 | h0 | ⟨h0, h1⟩ | ⟨h0, h1⟩ := led_cases c
  · exact absurd (decodeHead_led0 h0 ▸ h) (decodeLed0_ne_twoWord c op b)
  · rw [decodeHead_A4 h0] at h; cases h
  · rw [decodeHead_led90 h0 h1] at h; unfold decodeFlagBranch at h; split at h <;> cases h
  · exact (encode_of_decodeFam9 h0).2 op b w (decodeHead_led9_pos h0 h1 ▸ h)

/-- Settles O5: one word or two, by what the head decodes to. -/
theorem encodeReproducesDecodedWords : Obligations.EncodeReproducesDecodedWords := by
  intro ws i rest h
  obtain ⟨c, hd, rfl⟩ | ⟨c, op, b, w, hd, rfl, rfl⟩ := decodeWords_ok h
  · exact ⟨(Machine.decodeHead_oneWord hd).1, by rw [encode_of_decodeHead_oneWord hd]; rfl⟩
  · exact ⟨(Machine.fam9Word_wellFormed op b w).1, by rw [encode_of_decodeHead_twoWord w hd]; rfl⟩

/-! ### The length (R70, R73) -/

/-- Every instruction obeys the law of lengths stated of each. -/
theorem wordCount_law (i : Instr) : Laws.WordCount.Statement i := by
  open Laws.WordCount in
  cases i
  exacts [halt, inc _, dec _, push, pop, load _, store _, add _, sub _, mul _, br _, brn _, brz _, brnf _, brzf _, pushi _, pushiw _,
    pushn _, pushnw _, ldi _, ldiw _, ldn _, ldnw _, addi _, addiw _, addn _, addnw _, subi _, subiw _, subn _, subnw _, muli _,
    muliw _, muln _, mulnw _]

/-- Settles O7: a word that decodes leads the encoding of an instruction, whose length its digits tell by `wordCount_law`. -/
theorem instructionWordTellsLength : Obligations.InstructionWordTellsLength := by
  intro c hc
  cases hd : decodeHead c with
  | unknown => exact absurd hd hc
  | oneWord i =>
    have hlaw := (wordCount_law i).2 c (by rw [encode_of_decodeHead_oneWord hd]; rfl)
    have hone := (Machine.decodeHead_oneWord hd).2
    rw [if_neg (by rw [← hlaw]; omega)]
    rfl
  | twoWord op b =>
    have hlaw := (wordCount_law (fam9Word op b c)).2 c (by rw [encode_of_decodeHead_twoWord c hd]; rfl)
    rw [if_pos (hlaw.1 (Machine.fam9Word_wellFormed op b c).2)]
    rfl

/-! ### The illegal cell values (30_encoding.md section 5) -/

theorem decodeLed0_eq_unknown (c : CellValue) :
    decodeLed0 c = .unknown ↔ 5 ≤ c.d1.val ∨ (c.d1.val ≠ 1 ∧ c.d1.val ≠ 2 ∧ fieldA3 c ≠ 0) := by
  have hlt := c.d1.lt_ten
  unfold decodeLed0
  generalize c.d1.val = n at hlt ⊢
  interval_cases n <;> simp

theorem decodeFlagBranch_eq_unknown (c : CellValue) : decodeFlagBranch c = .unknown ↔ c.d2.val ≠ 7 ∧ c.d2.val ≠ 8 := by
  unfold decodeFlagBranch
  split <;> simp_all

theorem fam9OpOf_eq_none (o : Nat) : fam9OpOf o = none ↔ o = 0 ∨ 6 ≤ o := by
  unfold fam9OpOf
  split <;> grind

theorem fam9ModeOf_cases (m : Nat) :
    (m = 0 ∧ fam9ModeOf m = some .shortImmediate) ∨ (m = 1 ∧ fam9ModeOf m = some .wordImmediate) ∨
    (m = 2 ∧ fam9ModeOf m = some .shortIndirect) ∨ (m = 3 ∧ fam9ModeOf m = some .wordIndirect) ∨ (4 ≤ m ∧ fam9ModeOf m = none) := by
  unfold fam9ModeOf
  split <;> grind

theorem decodeFam9_eq_unknown (c : CellValue) :
    decodeFam9 c = .unknown ↔
      (c.d1.val = 0 ∨ 6 ≤ c.d1.val) ∨ 4 ≤ c.d2.val ∨ ((c.d2.val = 1 ∨ c.d2.val = 3) ∧ fieldA2 c ≠ 0) := by
  unfold decodeFam9
  rw [fam9OpDigit, fam9ModeDigit, slice_1_1, slice_2_2, ← fam9OpOf_eq_none]
  cases fam9OpOf c.d1.val with
  | none => simp
  | some op =>
    obtain ⟨h, hm⟩ | ⟨h, hm⟩ | ⟨h, hm⟩ | ⟨h, hm⟩ | ⟨h, hm⟩ := fam9ModeOf_cases c.d2.val <;>
      (rw [hm]; simp [h])

/-- The ranges of section 5 that are listed once per operation, in the digits of the number. -/
theorem exists_operation_range {d0 d1 r n : Nat} (hn : n = 10000 * d0 + 1000 * d1 + r) (h0 : d0 < 10) (h1 : d1 < 10) (hr : r < 1000)
    {lo hi : Nat} (hhi : hi ≤ 999) :
    (∃ o, 1 ≤ o ∧ o ≤ 5 ∧ 90000 + 1000 * o + lo ≤ n ∧ n ≤ 90000 + 1000 * o + hi) ↔
      d0 = 9 ∧ 1 ≤ d1 ∧ d1 ≤ 5 ∧ lo ≤ r ∧ r ≤ hi := by
  constructor
  · rintro ⟨o, h⟩
    obtain rfl : d1 = o := by omega
    omega
  · rintro ⟨rfl, h⟩
    exact ⟨d1, by omega⟩

/-- Settles O6: by the four sorts of words; each sort's own condition is a set of ranges of the number its digits write. -/
theorem illegalCellValues : Obligations.IllegalCellValues := by
  intro c n hn
  have h0 := c.d0.lt_ten; have h1 := c.d1.lt_ten; have := c.d2.lt_ten; have := c.d3.lt_ten; have := c.d4.lt_ten
  have hr : 100 * c.d2.val + 10 * c.d3.val + c.d4.val < 1000 := by omega
  have hn' : n = 10000 * c.d0.val + 1000 * c.d1.val + (100 * c.d2.val + 10 * c.d3.val + c.d4.val) := by omega
  rw [exists_operation_range hn' h0 h1 hr (by omega), exists_operation_range hn' h0 h1 hr (by omega),
    exists_operation_range hn' h0 h1 hr (by omega)]
  obtain hd | hd | ⟨hd, hd1⟩ | ⟨hd, hd1⟩ := led_cases c
  · have hne : c.d0.val ≠ 9 := by omega
    rw [decodeHead_led0 hd, decodeLed0_eq_unknown, fieldA3_eq]
    simp only [hne, false_and, false_or]
    generalize 100 * c.d2.val + 10 * c.d3.val + c.d4.val = r at hr hn' ⊢
    clear hn
    omega
  · simp only [decodeHead_A4 hd, reduceCtorEq, false_iff]; omega
  · rw [decodeHead_led90 hd hd1, decodeFlagBranch_eq_unknown]; omega
  · rw [decodeHead_led9_pos hd hd1, decodeFam9_eq_unknown, fieldA2_eq]; omega

/-- Settles O8: each word by computation. -/
theorem sampleWordsDecode : Obligations.SampleWordsDecode := by
  exact ⟨rfl, rfl, rfl, rfl, rfl, rfl, rfl, rfl⟩

end Sys2Proof
end

section
/-!
The 35 instructions in five normal forms, tied to `exec` by `exec_eq_perform` and to the tables of Sys2Proof/Safety.lean by one equation
each. A fact about all instructions, how they complete or which faults they raise, is then proved form by form.
-/

namespace Sys2Proof.Machine

/-! ### The normal forms -/

/-- Where an operand comes from (R82): the accumulator, the cell the field names, the instruction itself, or through a pointer. -/
inductive Operand where
  | acc
  | direct (a : Nat)
  | short (xx : Nat)
  | word (w : CellValue)
  | shortPointer (xx : Nat)
  | wordPointer (w : CellValue)

/-- The operand value and its source, with the faults of reading it. -/
def Operand.resolve (o : Operand) (p : Nat) (s : State) : Except Fault (CellValue × Src) :=
  match o with
  | .acc => do
    let v ← accRead s
    .ok (v, .acc)
  | .direct a => operandDirect a s
  | .short xx => operandI xx
  | .word w => operandIW w p
  | .shortPointer xx => operandN xx s
  | .wordPointer w => operandNW w p s

/-- The words of an instruction with this operand (R70). -/
def Operand.words (o : Operand) : Nat :=
  match o with
  | .word _ | .wordPointer _ => 2
  | _ => 1

/-- What is done with an operand. -/
inductive Operation where
  | push
  | load
  | store (a : Nat)
  | arith (op : ArithOp)

def Operation.act (k : Operation) (c : CellValue) (src : Src) (s : State) : Except Fault State :=
  match k with
  | .push => Machine.push s c
  | .load => .ok (s.setAcc c)
  | .store a => memWrite s a c
  | .arith op => Machine.arith op c src s

/-- What a branch tests (R171 to R175). -/
inductive Condition where
  | always
  | accNegative
  | accZero
  | negative
  | zero

def Condition.test (k : Condition) (s : State) : Except Fault Bool :=
  match k with
  | .always => .ok true
  | .accNegative => do
    let u ← accRead s
    .ok (decide (u.d0.val = 1))
  | .accZero => do
    let u ← accRead s
    .ok (decide (magnitude u = 0))
  | .negative => .ok s.negative
  | .zero => .ok s.zero

/-- The normal forms. -/
inductive Action where
  | halt
  | addToCell (a : Nat) (d : Int)
  | pop
  | branch (k : Condition) (a : Nat)
  | operate (k : Operation) (o : Operand)

/-- The computation of a normal form, for the instruction at `p`. -/
def Action.rule (x : Action) (s : State) (p : Nat) : Except Fault State :=
  match x with
  | .halt => .ok s.halt
  | .addToCell a d => do
    let t ← Machine.addToCell a d s
    .ok (t.finish p 1)
  | .pop => do
    let (v, t) ← Machine.pop s
    .ok ((t.setAcc v).finish p 1)
  | .branch k a => do
    let b ← k.test s
    .ok (if b then s.jump a else s.finish p 1)
  | .operate k o => do
    let (c, src) ← o.resolve p s
    let t ← k.act c src s
    .ok (t.finish p o.words)

end Sys2Proof.Machine

/-- The normal form of an instruction. -/
def Sys2Proof.Instr.action (i : Sys2Proof.Instr) : Sys2Proof.Machine.Action :=
  match i with
  | .halt => .halt
  | .inc a => .addToCell a 1
  | .dec a => .addToCell a (-1)
  | .push => .operate .push .acc
  | .pop => .pop
  | .load a => .operate .load (.direct a)
  | .store a => .operate (.store a) .acc
  | .add a => .operate (.arith .add) (.direct a)
  | .sub a => .operate (.arith .sub) (.direct a)
  | .mul a => .operate (.arith .mul) (.direct a)
  | .br a => .branch .always a
  | .brn a => .branch .accNegative a
  | .brz a => .branch .accZero a
  | .brnf a => .branch .negative a
  | .brzf a => .branch .zero a
  | .pushi xx => .operate .push (.short xx)
  | .pushiw w => .operate .push (.word w)
  | .pushn xx => .operate .push (.shortPointer xx)
  | .pushnw w => .operate .push (.wordPointer w)
  | .ldi xx => .operate .load (.short xx)
  | .ldiw w => .operate .load (.word w)
  | .ldn xx => .operate .load (.shortPointer xx)
  | .ldnw w => .operate .load (.wordPointer w)
  | .addi xx => .operate (.arith .add) (.short xx)
  | .addiw w => .operate (.arith .add) (.word w)
  | .addn xx => .operate (.arith .add) (.shortPointer xx)
  | .addnw w => .operate (.arith .add) (.wordPointer w)
  | .subi xx => .operate (.arith .sub) (.short xx)
  | .subiw w => .operate (.arith .sub) (.word w)
  | .subn xx => .operate (.arith .sub) (.shortPointer xx)
  | .subnw w => .operate (.arith .sub) (.wordPointer w)
  | .muli xx => .operate (.arith .mul) (.short xx)
  | .muliw w => .operate (.arith .mul) (.word w)
  | .muln xx => .operate (.arith .mul) (.shortPointer xx)
  | .mulnw w => .operate (.arith .mul) (.wordPointer w)

namespace Sys2Proof.Machine

theorem branch_accNegative_rule (s : State) (a p : Nat) :
    (Action.branch .accNegative a).rule s p =
      (accRead s >>= fun u => .ok (if u.d0.val = 1 then s.jump a else s.finish p 1)) := by
  cases h : accRead s <;> simp [Action.rule, Condition.test, h]

theorem branch_accZero_rule (s : State) (a p : Nat) :
    (Action.branch .accZero a).rule s p =
      (accRead s >>= fun u => .ok (if magnitude u = 0 then s.jump a else s.finish p 1)) := by
  cases h : accRead s <;> simp [Action.rule, Condition.test, h]

theorem operate_acc_rule (k : Operation) (s : State) (p : Nat) :
    (Action.operate k .acc).rule s p = (accRead s >>= fun v => k.act v .acc s >>= fun t => .ok (t.finish p 1)) := by
  cases h : accRead s <;> simp [Action.rule, Operand.resolve, Operand.words, h]

/-- Every instruction runs the computation of its normal form. -/
theorem exec_eq_perform (i : Instr) (s : State) : exec i s = perform s (i.action.rule s) := by
  match i with
  | .push => exact congrArg (perform s) (funext fun p => (operate_acc_rule .push s p).symm)
  | .store a => exact congrArg (perform s) (funext fun p => (operate_acc_rule (.store a) s p).symm)
  | .brn a => exact congrArg (perform s) (funext fun p => (branch_accNegative_rule s a p).symm)
  | .brz a => exact congrArg (perform s) (funext fun p => (branch_accZero_rule s a p).symm)
  | .halt | .inc _ | .dec _ | .br _ | .pop | .load _ | .add _ | .sub _ | .mul _ | .brnf _ | .brzf _
  | .pushi _ | .pushiw _ | .pushn _ | .pushnw _ | .ldi _ | .ldiw _ | .ldn _ | .ldnw _
  | .addi _ | .addiw _ | .addn _ | .addnw _ | .subi _ | .subiw _ | .subn _ | .subnw _
  | .muli _ | .muliw _ | .muln _ | .mulnw _ => rfl

theorem exec_of_rule_ok {i : Instr} {s t : State} {p : Nat} (hp : s.ip = some p) (h : i.action.rule s p = .ok t) :
    exec i s = .next t := by
  rw [exec_eq_perform]; exact perform_of_ok hp h

theorem exec_of_rule_error {i : Instr} {s : State} {p : Nat} {f : Fault} (hp : s.ip = some p) (h : i.action.rule s p = .error f) :
    exec i s = .next (s.takeFault f) := by
  rw [exec_eq_perform]; exact perform_of_error hp h

/-! ### An instruction with an operand (R185): resolve, then act -/

theorem exec_operate {i : Instr} {k : Operation} {o : Operand} {s t : State} {p : Nat} {x : CellValue × Src}
    (hi : i.action = .operate k o) (hp : s.ip = some p) (hx : o.resolve p s = .ok x) (ht : k.act x.1 x.2 s = .ok t) :
    exec i s = .next (t.finish p o.words) :=
  exec_of_rule_ok hp (by simp [hi, Action.rule, hx, ht])

theorem exec_operate_resolve_error {i : Instr} {k : Operation} {o : Operand} {s : State} {p : Nat} {f : Fault}
    (hi : i.action = .operate k o) (hp : s.ip = some p) (hx : o.resolve p s = .error f) : exec i s = .next (s.takeFault f) :=
  exec_of_rule_error hp (by simp [hi, Action.rule, hx])

theorem exec_operate_act_error {i : Instr} {k : Operation} {o : Operand} {s : State} {p : Nat} {x : CellValue × Src} {f : Fault}
    (hi : i.action = .operate k o) (hp : s.ip = some p) (hx : o.resolve p s = .ok x) (ht : k.act x.1 x.2 s = .error f) :
    exec i s = .next (s.takeFault f) :=
  exec_of_rule_error hp (by simp [hi, Action.rule, hx, ht])

/-! ### What a normal form has done when it completes -/

/-- What an instruction of this form at `p` has done to `s` when it completes. -/
inductive Action.Change (s : State) (p : Nat) : Action → State → Prop where
  | halt : Change s p .halt s.halt
  | addToCell {a : Nat} {d : Int} (r : Int) (ha : a < 10000) :
      Change s p (.addToCell a d) (((s.setMem (s.mem.write a (encodeNum r))).setFlags r).finish p 1)
  | pop (v : CellValue) (hlt : s.sp < s.bp) : Change s p .pop (((s.setSp (s.sp + 1)).setAcc v).finish p 1)
  | jump {k : Condition} {a : Nat} : Change s p (.branch k a) (s.jump a)
  | pass {k : Condition} {a : Nat} : Change s p (.branch k a) (s.finish p 1)
  | push {o : Operand} (v : CellValue) (hpos : 0 < s.sp) (hlt : s.sp - 1 < 10000) :
      Change s p (.operate .push o) (((s.setMem (s.mem.write (s.sp - 1) v)).setSp (s.sp - 1)).finish p o.words)
  | load {o : Operand} (c : CellValue) : Change s p (.operate .load o) ((s.setAcc c).finish p o.words)
  | store {a : Nat} {o : Operand} (v : CellValue) (ha : a < 10000) :
      Change s p (.operate (.store a) o) ((s.setMem (s.mem.write a v)).finish p o.words)
  | arith {op : ArithOp} {o : Operand} (r : Int) :
      Change s p (.operate (.arith op) o) (((s.setAcc (encodeNum r)).setFlags r).finish p o.words)

theorem CellEffect.change {a p : Nat} {d : Int} {s t : State} (h : CellEffect a d s p t) : Action.Change s p (.addToCell a d) t := by
  obtain ⟨_, ha, _, _, _, _, rfl⟩ := h
  exact .addToCell _ ha

theorem PushEffect.change {v : CellValue} {o : Operand} {p : Nat} {s t : State} (h : PushEffect v o.words s p t) :
    Action.Change s p (.operate .push o) t := by
  obtain ⟨hpos, hlt, rfl⟩ := h
  exact .push v hpos hlt

theorem LoadEffect.change {c : CellValue} {o : Operand} {p : Nat} {s t : State} (h : LoadEffect c o.words s p t) :
    Action.Change s p (.operate .load o) t := by
  obtain rfl := h
  exact .load c

theorem ArithEffect.change {op : ArithOp} {c : CellValue} {o : Operand} {p : Nat} {s t : State} (h : ArithEffect op c o.words s p t) :
    Action.Change s p (.operate (.arith op) o) t := by
  obtain ⟨_, _, _, _, _, _, rfl⟩ := h
  exact .arith _

/-- A conditional branch ends in one of two ways. -/
theorem branch_change (k : Condition) (b : Prop) [Decidable b] (s : State) (a p : Nat) :
    Action.Change s p (.branch k a) (if b then s.jump a else s.finish p 1) := by
  split
  · exact .jump
  · exact .pass

/-- Everything the computation of a normal form can answer but a fault. -/
theorem Action.change_of_rule {x : Action} {s t : State} {p : Nat} (h : x.rule s p = .ok t) : x.Change s p t := by
  cases x with
  | halt => cases h; exact .halt
  | addToCell a d => exact (addToCell_finish h).change
  | pop =>
    obtain ⟨⟨v, u⟩, hpop, hr⟩ := (bind_eq_ok _ _ _).1 h
    obtain ⟨hlt, -, -, rfl⟩ := (pop_ok s u v).1 hpop
    cases hr
    exact .pop v hlt
  | branch k a =>
    obtain ⟨b, -, hr⟩ := (bind_eq_ok _ _ _).1 h
    cases hr
    exact branch_change k (b = true) s a p
  | operate k o =>
    obtain ⟨⟨c, src⟩, -, hr⟩ := (bind_eq_ok _ _ _).1 h
    cases k with
    | push => exact (push_finish hr).change
    | load => exact (load_finish hr).change
    | store a =>
      obtain ⟨u, hu, hr⟩ := (bind_eq_ok _ _ _).1 hr
      obtain ⟨ha, rfl⟩ := (memWrite_ok s u a c).1 hu
      cases hr
      exact .store c ha
    | arith op => exact (arith_finish hr).change

/-- Everything `exec` can answer, by the normal form. -/
theorem exec_change {i : Instr} {s t : State} (h : exec i s = .next t) :
    (∃ f, t = s.takeFault f) ∨ ∃ p, s.ip = some p ∧ i.action.Change s p t := by
  rw [exec_eq_perform] at h
  obtain ⟨p, hp, hr⟩ | hf := perform_eq_next h
  · exact .inr ⟨p, hp, Action.change_of_rule hr⟩
  · exact .inl hf

/-- R104, R106: an instruction that completes reports no fault. -/
theorem Action.Change.status_ne_fault {x : Action} {s t : State} {p : Nat} (h : x.Change s p t) (f : Fault) : t.status ≠ .fault f := by
  cases h <;> exact Status.noConfusion

/-- R221: an instruction that reports a fault has done nothing else. -/
theorem eq_takeFault_of_exec {i : Instr} {s t : State} {f : Fault} (h : exec i s = .next t) (hf : t.status = .fault f) :
    t = s.takeFault f := by
  obtain ⟨g, rfl⟩ | ⟨p, -, hc⟩ := exec_change h
  · cases hf; rfl
  · exact absurd hf (hc.status_ne_fault f)

/-- What an instruction that does not report a fault has done. -/
theorem change_of_exec {i : Instr} {s t : State} (h : exec i s = .next t) (hf : ∀ f, t.status ≠ .fault f) :
    ∃ p, s.ip = some p ∧ i.action.Change s p t := by
  obtain ⟨f, rfl⟩ | hc := exec_change h
  · exact absurd rfl (hf f)
  · exact hc

/-- Whatever faults leave alone, and completing instructions with the property `P` too, every run of an instruction with `P` leaves
alone. -/
theorem frame_of_change {α : Type} (g : State → α) (hg : ∀ s f, g (State.takeFault s f) = g s) {P : Prop} {i : Instr} {s t : State}
    (hc : ∀ p, P → i.action.Change s p t → g t = g s) (h : exec i s = .next t) (hP : P ∨ ∃ f, t.status = .fault f) : g t = g s := by
  obtain hP | ⟨f, hf⟩ := hP
  · obtain ⟨f, rfl⟩ | ⟨p, -, hch⟩ := exec_change h
    · exact hg s f
    · exact hc p hP hch
  · rw [eq_takeFault_of_exec h hf, hg]

/-! ### The tables of Sys2Proof/Safety.lean, by normal form -/

def Action.writesAcc (x : Action) : Bool :=
  match x with
  | .pop | .operate .load _ | .operate (.arith _) _ => true
  | _ => false

def Action.writesFlags (x : Action) : Bool :=
  match x with
  | .addToCell _ _ | .operate (.arith _) _ => true
  | _ => false

def Action.pushes (x : Action) : Bool :=
  match x with
  | .operate .push _ => true
  | _ => false

def Action.storedCell (x : Action) (s : State) : Option Nat :=
  match x with
  | .addToCell a _ | .operate (.store a) _ => some a
  | .operate .push _ => some (s.sp - 1)
  | _ => none

theorem writesAcc_eq (i : Instr) : writesAcc i = i.action.writesAcc := by cases i <;> rfl

theorem writesFlags_eq (i : Instr) : writesFlags i = i.action.writesFlags := by cases i <;> rfl

theorem pushes_eq (i : Instr) : pushes i = i.action.pushes := by cases i <;> rfl

theorem storedCell_eq (i : Instr) (s : State) : storedCell i s = i.action.storedCell s := by cases i <;> rfl

theorem action_eq_pop (i : Instr) : i.action = .pop ↔ i = .pop := by cases i <;> simp [Instr.action]

/-! ### What a completing form leaves alone -/

theorem Action.Change.acc {x : Action} {s t : State} {p : Nat} (hw : x.writesAcc = false) (h : x.Change s p t) : t.acc = s.acc := by
  cases h with
  | halt | addToCell | jump | pass | push | store => rfl
  | pop | load | arith => cases hw

theorem Action.Change.flags {x : Action} {s t : State} {p : Nat} (hw : x.writesFlags = false) (h : x.Change s p t) :
    flagsOf t = flagsOf s := by
  cases h with
  | halt | pop | jump | pass | push | load | store => rfl
  | addToCell | arith => cases hw

theorem Action.Change.sp {x : Action} {s t : State} {p : Nat} (hw : x.pushes = false) (hpop : x ≠ .pop) (h : x.Change s p t) :
    t.sp = s.sp := by
  cases h with
  | halt | addToCell | jump | pass | load | store | arith => rfl
  | pop => exact absurd rfl hpop
  | push => cases hw

theorem Action.Change.sp_of_pushes {x : Action} {s t : State} {p : Nat} (hw : x.pushes = true) (h : x.Change s p t) :
    t.sp + 1 = s.sp := by
  cases h with
  | push _ hpos => exact Nat.sub_add_cancel hpos
  | halt | addToCell | pop | jump | pass | load | store | arith => cases hw

theorem Action.Change.bp {x : Action} {s t : State} {p : Nat} (h : x.Change s p t) : t.bp = s.bp := by
  cases h <;> rfl

theorem Action.Change.mem_read {x : Action} {s t : State} {p b : Nat} (hb : x.storedCell s ≠ some b) (h : x.Change s p t) :
    t.mem.read b = s.mem.read b := by
  cases h with
  | halt | pop | jump | pass | load | arith => rfl
  | addToCell | push | store => exact Memory.read_write_other s.mem _ fun hba => hb (congrArg some hba.symm)

/-! ### The obligations -/

/-- Settles O35: a completing form that does not write `acc` leaves it, and so does a fault. -/
theorem accumulatorFrame : Obligations.AccumulatorFrame := fun i _ _ h hw =>
  frame_of_change State.acc (fun _ _ => rfl) (fun _ => Action.Change.acc) h (writesAcc_eq i ▸ hw)

/-- Settles O37: the pair of flags is left by every completing form but the arithmetic ones and INC and DEC, and by a fault. -/
theorem flagsFrame : Obligations.FlagsFrame := fun i _ _ h hw =>
  Prod.mk.inj (frame_of_change flagsOf (fun _ _ => rfl) (fun _ => Action.Change.flags) h (writesFlags_eq i ▸ hw))

/-- Settles O39: a completing form writes its stored cell at most, and a fault none. -/
theorem memoryFrame : Obligations.MemoryFrame := fun i s _ b h hb =>
  frame_of_change (fun u => u.mem.read b) (fun _ _ => rfl) (fun _ => Action.Change.mem_read) h (storedCell_eq i s ▸ hb)

/-- Settles O38: `exec_ends` for `loaded` and `halted`, the normal forms for `bp` and `sp`. -/
theorem controlStateFrame : Obligations.ControlStateFrame := by
  intro i s t h
  obtain ⟨hloaded, hends⟩ := exec_ends h
  have hok (hst : t.status = .ok) : ∃ p, s.ip = some p ∧ i.action.Change s p t := change_of_exec h (by simp [hst])
  refine ⟨?_, hloaded, fun hpush hpop => ?_, fun f hf => ?_, fun hst => ?_, fun hpush hst => ?_, fun hpop hst => ?_⟩
  · exact frame_of_change State.bp (fun _ _ => rfl) (fun _ (_ : True) => Action.Change.bp) h (.inl trivial)
  · have hpop' : i.action ≠ .pop := mt (action_eq_pop i).1 hpop
    exact frame_of_change State.sp (fun _ _ => rfl) (fun _ hP => Action.Change.sp hP hpop') h (.inl (pushes_eq i ▸ hpush))
  · rw [eq_takeFault_of_exec h hf]; exact ⟨rfl, rfl⟩
  · obtain ⟨-, he⟩ | ⟨-, f, he⟩ | ⟨-, he⟩ := hends
    · rw [hst] at he; cases he
    · rw [hst] at he; cases he
    · exact he
  · obtain ⟨p, -, hc⟩ := hok hst
    exact hc.sp_of_pushes (pushes_eq i ▸ hpush)
  · obtain ⟨p, -, hc⟩ := hok hst
    rw [(action_eq_pop i).2 hpop] at hc
    cases hc
    rfl

end Sys2Proof.Machine
end

section
/-!
Proofs that the invariant holds at creation and is kept (10_state.md sections 3 to 5, 42_stack.md section 2): each update of the state keeps
it, so each completing form does, so each step and each host operation does.
-/

namespace Sys2Proof.Machine

/-! ### The fields of a well-formed instruction, by normal form (R72) -/

/-- The address field of the form, if it has one, is an address of the machine. -/
def Operand.Addressed (o : Operand) : Prop :=
  match o with
  | .direct a => a ≤ 9999
  | _ => True

def Operation.Addressed (k : Operation) : Prop :=
  match k with
  | .store a => a ≤ 9999
  | _ => True

def Action.Addressed (x : Action) : Prop :=
  match x with
  | .addToCell a _ | .branch _ a => a ≤ 9999
  | .operate k o => k.Addressed ∧ o.Addressed
  | _ => True

theorem addressed_of_wellFormed {i : Instr} (h : i.wellFormed = true) : i.action.Addressed := by
  cases i with
  | inc | dec | load | store | add | sub | mul | br | brn | brz | brnf | brzf =>
    simp only [Instr.wellFormed, fits_a2Digits, fits_a3Digits, fits_a4Digits, decide_eq_true_eq] at h
    simp only [Instr.action, Action.Addressed, Operation.Addressed, Operand.Addressed, true_and, and_true]
    omega
  | halt | pop => trivial
  | _ => exact ⟨trivial, trivial⟩

/-- The words of an instruction of this form (R70). -/
def Action.words (x : Action) : Nat :=
  match x with
  | .operate _ o => o.words
  | _ => 1

theorem wordCount_eq (i : Instr) : i.wordCount = i.action.words := by cases i <;> rfl

/-! ### Updates that keep the invariant -/

namespace State.Inv

variable {s : State}

theorem setAcc (h : s.Inv) (v : CellValue) : (s.setAcc v).Inv :=
  ⟨h.ip_le, h.sp_le, h.bp_eq, h.flags, h.mem_wf, h.stack_written⟩

/-- R27, R28: a result is not zero and negative at once. -/
theorem setFlags (h : s.Inv) (r : Int) : (s.setFlags r).Inv :=
  ⟨h.ip_le, h.sp_le, h.bp_eq, by simp only [setFlags_zero, setFlags_negative, decide_eq_true_eq]; omega, h.mem_wf, h.stack_written⟩

theorem finish (h : s.Inv) {p n : Nat} (hle : p + n ≤ 10000) : (s.finish p n).Inv :=
  ⟨fun _ hq => Option.some.inj hq ▸ hle, h.sp_le, h.bp_eq, h.flags, h.mem_wf, h.stack_written⟩

theorem jump (h : s.Inv) {a : Nat} (hle : a ≤ 10000) : (s.jump a).Inv :=
  ⟨fun _ hq => Option.some.inj hq ▸ hle, h.sp_le, h.bp_eq, h.flags, h.mem_wf, h.stack_written⟩

theorem write (h : s.Inv) {a : Nat} (ha : a < 10000) (v : CellValue) : (s.setMem (s.mem.write a v)).Inv :=
  ⟨h.ip_le, h.sp_le, h.bp_eq, h.flags, Memory.wf_write s.mem a v h.mem_wf ha,
    fun b hlo hhi => Memory.read_write_ne_none s.mem a v b (h.stack_written b hlo hhi)⟩

/-- A push writes the cell that becomes live. -/
theorem push (h : s.Inv) (v : CellValue) (hpos : 0 < s.sp) :
    ((s.setMem (s.mem.write (s.sp - 1) v)).setSp (s.sp - 1)).Inv := by
  have hsp := h.sp_le
  have hbp := h.bp_eq
  have hmem := (h.write (show s.sp - 1 < 10000 by omega) v).mem_wf
  refine ⟨h.ip_le, (Nat.sub_le _ _).trans hsp, hbp, h.flags, hmem, fun b hlo hhi => ?_⟩
  simp only [setSp_sp, setSp_bp, setMem_bp, setSp_mem, setMem_mem] at hlo hhi ⊢
  by_cases hb : b = s.sp - 1
  · rw [hb, Memory.read_write_same]; exact Option.some_ne_none v
  · rw [Memory.read_write_other _ _ hb]; exact h.stack_written b (by omega) hhi

theorem pop (h : s.Inv) (hlt : s.sp < s.bp) : (s.setSp (s.sp + 1)).Inv :=
  ⟨h.ip_le, hlt, h.bp_eq, h.flags, h.mem_wf, fun b hlo hhi => h.stack_written b (Nat.le_of_succ_le hlo) hhi⟩

/-- The invariant does not speak of `loaded`, `halted` and the report. -/
theorem control (h : s.Inv) (loaded : Bool) (halted : Halted) (status : Status) :
    State.Inv { s with loaded, halted, status } :=
  ⟨h.ip_le, h.sp_le, h.bp_eq, h.flags, h.mem_wf, h.stack_written⟩

end State.Inv

/-! ### Every instruction keeps it -/

theorem Action.Change.inv {x : Action} {s t : State} {p : Nat} (h : x.Change s p t) (hs : s.Inv) (hx : x.Addressed)
    (hle : p + x.words ≤ 10000) : t.Inv := by
  cases h with
  | halt => exact hs.control s.loaded .yes .haltExecuted
  | addToCell r ha => exact ((hs.write ha _).setFlags r).finish hle
  | pop v hlt => exact ((hs.pop hlt).setAcc v).finish hle
  | jump => exact hs.jump (Nat.le_succ_of_le hx)
  | pass => exact hs.finish hle
  | push v hpos _ => exact (hs.push v hpos).finish hle
  | load c => exact (hs.setAcc c).finish hle
  | store v ha => exact (hs.write ha v).finish hle
  | arith r => exact ((hs.setAcc _).setFlags r).finish hle

theorem takeFault_inv {s : State} (hs : s.Inv) (f : Fault) : (s.takeFault f).Inv := hs.control s.loaded .yes (.fault f)

theorem exec_inv {i : Instr} {s t : State} (hs : s.Inv) (hi : i.wellFormed = true) (hle : ∀ p, s.ip = some p → p + i.wordCount ≤ 10000)
    (h : exec i s = .next t) : t.Inv := by
  obtain ⟨f, rfl⟩ | ⟨p, hp, hc⟩ := exec_change h
  · exact takeFault_inv hs f
  · exact hc.inv hs (addressed_of_wellFormed hi) (wordCount_eq i ▸ hle p hp)

/-- Settles O47: fetch gives a well-formed instruction that ends within the memory, and each such instruction keeps the invariant. -/
theorem stepKeepsInvariant : Obligations.StepKeepsInvariant := by
  intro s t hs h
  have hbegin : s.beginStep.Inv := hs.control s.loaded _ s.status
  obtain ⟨g, -, rfl⟩ | ⟨-, f, -, rfl⟩ | ⟨-, i, hi, he⟩ := step_next h
  · exact hs.control s.loaded s.halted _
  · exact takeFault_inv hbegin f
  · obtain ⟨p, c, hp, -, -, hwf, hle, -⟩ := fetchInstr_ok hi
    exact exec_inv hbegin hwf (fun q hq => Option.some.inj (hp.symm.trans hq) ▸ hle) he

/-! ### Every host operation keeps it -/

theorem runFor_inv (n : Nat) {s t : State} (hs : s.Inv) (h : runFor n s = .next t) : t.Inv := by
  induction n generalizing s with
  | zero => cases h; exact hs.control s.loaded s.halted _
  | succ n ih =>
    unfold runFor at h
    split at h
    · rename_i u hu
      have hinv := stepKeepsInvariant s u hs hu
      split at h
      · cases h; exact hinv
      · exact ih hinv h
    · cases h
    · cases h

theorem applyLines_read_ne_none (ls : List Line) (m : Memory) (b : Nat) (h : m.read b ≠ none) : (applyLines ls m).1.read b ≠ none := by
  induction ls generalizing m with
  | nil => exact h
  | cons l ls ih =>
    unfold applyLines
    split
    · exact h
    · exact ih _ (Memory.read_write_ne_none m _ _ b h)

/-- The lines of a load write addresses of the machine, and never FILLER. -/
theorem applyLines_inv {s : State} (hs : s.Inv) (ls : List Line) : (s.setMem (applyLines ls s.mem).1).Inv :=
  ⟨hs.ip_le, hs.sp_le, hs.bp_eq, hs.flags, wf_applyLines ls s.mem hs.mem_wf,
    fun b hlo hhi => applyLines_read_ne_none ls s.mem b (hs.stack_written b hlo hhi)⟩

theorem load_inv {s : State} (hs : s.Inv) (file : Option (List Line)) : (s.load file).Inv := by
  cases file with
  | none => exact hs.control false s.halted .loadError
  | some ls =>
    have hinv := applyLines_inv hs ls
    unfold State.load
    dsimp only
    split <;> rename_i heq <;> rw [heq] at hinv
    · exact hinv.control true .no .loadOk
    · exact hinv.control false s.halted .loadError

theorem hostReset_inv {s : State} (hs : s.Inv) : s.hostReset.Inv := by
  refine ⟨hs.ip_le, hs.sp_le, hs.bp_eq, hs.flags, wf_zeroCells, fun b _ hhi => ?_⟩
  have hbp : s.hostReset.bp = 9999 := hs.bp_eq
  rw [hostReset_read s (by omega)]
  exact Option.some_ne_none _

/-- R54. -/
theorem inRange_eq_true (a : Int) : inRange a = true ↔ 0 ≤ a ∧ a ≤ 9999 := by
  have hsize : (Config.memSize : Int) = 10000 := rfl
  rw [inRange, Bool.and_eq_true, decide_eq_true_iff, decide_eq_true_iff, hsize]
  omega

theorem setStartAddress_inv {s : State} (hs : s.Inv) (a : Int) : (s.setStartAddress a).Inv := by
  unfold State.setStartAddress
  split
  · rename_i h
    have ha := (inRange_eq_true a).1 h
    exact (hs.jump (a := a.toNat) (by omega)).control s.loaded s.halted .done
  · exact hs.control s.loaded s.halted _

/-- Settles O48: call by call; `run` by `stepKeepsInvariant` for each of its steps. -/
theorem hostCallsKeepInvariant : Obligations.HostCallsKeepInvariant := by
  intro c s t hs h
  cases c with
  | load file => cases h; exact load_inv hs file
  | reset => cases h; exact hostReset_inv hs
  | setStartAddress a => cases h; exact setStartAddress_inv hs a
  | step => exact stepKeepsInvariant s t hs h
  | run => exact runFor_inv _ hs h

/-- Settles O46: `ip` is unset, the stack is empty and the memory has no entry. -/
theorem creationMeetsInvariant : Obligations.CreationMeetsInvariant := by
  exact ⟨fun _ h => (nomatch h), le_rfl, rfl, by decide, wf_reset, fun _ hlo hhi => absurd hhi (Nat.not_lt.2 hlo)⟩

end Sys2Proof.Machine
end

section
/-!
Proofs of the obligations on the checked primitives and the stack (20_memory.md section 5, 42_stack.md sections 2 and 5): accesses,
pointers, `Pop`, and the stack law, which needs to say which values lie on the stack.
-/

namespace Sys2Proof.Machine

/-! ### Checked accesses (R54 to R59) -/

/-- Settles O9: the operations' own lemmas, on each side of the range check. -/
theorem checkedMemoryAccess : Obligations.CheckedMemoryAccess := by
  refine ⟨inRange_eq_true, fun s a ha => ?_, fun s a ha => ?_⟩
  · have hn : ¬ a < 10000 := by omega
    exact ⟨by rw [memRead_eq, if_neg hn], (dataRead_error s a _).2 (.inl ⟨hn, rfl⟩), fun v => by rw [memWrite_eq, if_neg hn]⟩
  · have hlt : a < 10000 := by omega
    exact ⟨by rw [memRead_eq, if_pos hlt], fun hc => (dataRead_error s a _).2 (.inr ⟨hlt, hc, rfl⟩),
      fun c hc => (dataRead_ok s a c).2 ⟨hlt, hc⟩,
      fun v => ⟨s.mem.write a v, (memWrite_ok s _ a v).2 ⟨hlt, rfl⟩, Memory.read_write s.mem a v⟩⟩

/-- Settles O10: by the sign digit; the value of the word decides the address. -/
theorem pointerWordsNameAddresses : Obligations.PointerWordsNameAddresses := by
  intro c src n hn
  rw [← magnitude_eq] at hn
  subst hn
  refine ⟨fun h => ?_, fun h hz => ?_, fun h hz => ?_, fun h => ?_⟩
  · exact (addr_ok c src _).2 ⟨by omega, decodeNum_of_led0 h⟩
  · exact (addr_ok c src _).2 ⟨by omega, by rw [decodeNum_of_led1 h, hz]; rfl⟩
  · have hv := decodeNum_of_led1 h
    exact (addr_error c src _).2 (.inr ⟨by omega, by omega, by rw [hv]⟩)
  · exact (addr_error c src _).2 (.inl ⟨by omega, rfl⟩)

/-! ### The stack (R132, R136) -/

/-- Settles O13: the check, and `pop_of_lt` when it passes. -/
theorem popReadsAtStackPointer : Obligations.PopReadsAtStackPointer :=
  fun s => ⟨fun hle => (pop_error s _).2 (.inl ⟨hle, rfl⟩), fun hs hlt => pop_of_lt hs hlt⟩

/-- The `vs.length` topmost cells of the stack hold `vs`, the top first, and lie below `bp`. -/
def StackHolds (s : State) (vs : List CellValue) : Prop :=
  s.sp + vs.length ≤ s.bp ∧ ∀ (k : Nat) (h : k < vs.length), s.mem.read (s.sp + k) = some vs[k]

theorem stackHolds_push {s : State} {vs : List CellValue} (h : StackHolds s vs) (v : CellValue) (hpos : 0 < s.sp) :
    StackHolds ((s.setMem (s.mem.write (s.sp - 1) v)).setSp (s.sp - 1)) (v :: vs) := by
  obtain ⟨hle, hread⟩ := h
  refine ⟨?_, fun k hk => ?_⟩
  · simp only [setSp_sp, setSp_bp, setMem_bp, List.length_cons]; omega
  · simp only [setSp_mem, setSp_sp, setMem_mem]
    cases k with
    | zero => exact Memory.read_write_same _ _ _
    | succ k =>
      have hk' : k < vs.length := Nat.lt_of_succ_lt_succ hk
      rw [Memory.read_write_other _ _ (by omega), show s.sp - 1 + (k + 1) = s.sp + k by omega, hread k hk']
      rfl

theorem stackHolds_pop {s : State} {v : CellValue} {vs : List CellValue} (h : StackHolds s (v :: vs)) :
    s.mem.read s.sp = some v ∧ StackHolds (s.setSp (s.sp + 1)) vs := by
  obtain ⟨hle, hread⟩ := h
  rw [List.length_cons] at hle
  refine ⟨hread 0 (Nat.succ_pos _), by simp only [setSp_sp, setSp_bp]; omega, fun k hk => ?_⟩
  rw [setSp_mem, setSp_sp, show s.sp + 1 + k = s.sp + (k + 1) by omega]
  exact hread (k + 1) (Nat.succ_lt_succ hk)

/-- Pushes with room for them leave their values on the stack, the last on top. -/
theorem pushAll_ok {s : State} {us : List CellValue} (vs : List CellValue) (h : StackHolds s us) (hle : vs.length ≤ s.sp)
    (hsp : s.sp ≤ 9999) :
    ∃ t, pushAll vs s = .ok t ∧ t.sp = s.sp - vs.length ∧ t.bp = s.bp ∧ StackHolds t (vs.reverse ++ us) := by
  induction vs generalizing s us with
  | nil => exact ⟨s, rfl, rfl, rfl, h⟩
  | cons v vs ih =>
    rw [List.length_cons] at hle
    obtain ⟨t, ht, htsp, htbp, hholds⟩ :=
      ih (stackHolds_push h v (by omega)) (by rw [setSp_sp]; omega) (by rw [setSp_sp]; omega)
    refine ⟨t, ?_, ?_, htbp, ?_⟩
    · rw [pushAll, push_of_pos v (by omega) hsp, ok_bind, ht]
    · rw [htsp, setSp_sp, List.length_cons]; omega
    · rwa [List.reverse_cons, List.append_assoc]

/-- Pops give what the stack holds, from the top. -/
theorem popAll_ok {s : State} (vs : List CellValue) (h : StackHolds s vs) (hbp : s.bp = 9999) :
    ∃ u, popAll vs.length s = .ok (vs, u) ∧ u.sp = s.sp + vs.length ∧ u.bp = s.bp := by
  induction vs generalizing s with
  | nil => exact ⟨s, rfl, rfl, rfl⟩
  | cons v vs ih =>
    obtain ⟨hread, hholds⟩ := stackHolds_pop h
    have hle := h.1
    rw [List.length_cons] at hle
    obtain ⟨u, hu, husp, hubp⟩ := ih hholds hbp
    have hpop : pop s = .ok (v, s.setSp (s.sp + 1)) := (pop_ok s _ v).2 ⟨by omega, by omega, hread, rfl⟩
    refine ⟨u, by rw [List.length_cons, popAll, hpop, ok_bind]; simp only [hu, ok_bind], ?_, hubp⟩
    rw [husp, setSp_sp, List.length_cons]; omega

/-- Settles O15: the pushes leave the values on the empty stack with the last on top, and the pops give what the stack holds. -/
theorem pushesThenPopsReverse : Obligations.PushesThenPopsReverse := by
  intro s vs hs hsp hlen
  have hbp := hs.bp_eq
  have hempty : StackHolds s [] := ⟨hsp.le, fun k hk => absurd hk (Nat.not_lt_zero k)⟩
  obtain ⟨t, ht, htsp, htbp, hholds⟩ := pushAll_ok vs hempty (by omega) (by omega)
  rw [List.append_nil] at hholds
  obtain ⟨u, hu, husp, hubp⟩ := popAll_ok vs.reverse hholds (htbp.trans hbp)
  rw [List.length_reverse] at hu husp
  exact ⟨t, ht, by omega, u, hu, by omega⟩

end Sys2Proof.Machine
end

section
/-!
Proofs of the obligations on the instructions that complete (41_incdec.md to 46_family9.md): one lemma for each normal form gives the state
it ends in, and each instruction cites it with its operand resolved.
-/

namespace Sys2Proof

/-! ### Short immediates (R11) -/

theorem zext5_eq_encodeNum {n : Nat} (h : n ≤ 99) : Machine.zext5 n = Machine.encodeNum n := by
  have hd1 : n / 10 ^ 3 % 10 = 0 := by omega
  have hd2 : n / 10 ^ 2 % 10 = 0 := by omega
  rw [Machine.encodeNum_eq_wordA4, if_neg (by omega), Int.natAbs_natCast]
  exact CellValue.ext_val rfl hd1.symm hd2.symm rfl rfl

theorem decodeNum_zext5 {n : Nat} (h : n ≤ 99) : Machine.decodeNum (Machine.zext5 n) = n := by
  rw [zext5_eq_encodeNum h, Machine.decodeNum_encodeNum (by omega)]

/-- Settles O3: the two digits, and the codec's own word for the number. -/
theorem shortImmediateZeroExtends : Obligations.ShortImmediateZeroExtends := by
  intro n h
  refine ⟨rfl, rfl, rfl, ?_, ?_, zext5_eq_encodeNum h, decodeNum_zext5 h⟩
  · rw [Machine.zext5, digitAt_val]; omega
  · rw [Machine.zext5, digitAt_val]; omega

end Sys2Proof

namespace Sys2Proof.Machine

/-! ### Operands that resolve (R82, R181 to R184) -/

section
variable {s : State} {p a b xx : Nat} {w c v : CellValue}

theorem resolve_acc (hv : s.acc = some v) : Operand.acc.resolve p s = .ok (v, .acc) := by
  simp [Operand.resolve, (accRead_ok s v).2 hv]

theorem resolve_direct (ha : a ≤ 9999) (hc : s.mem.read a = some c) : (Operand.direct a).resolve p s = .ok (c, .mem a) :=
  (operandDirect_ok a s c _).2 ⟨by omega, hc, rfl⟩

theorem resolve_short : (Operand.short xx).resolve p s = .ok (zext5 xx, .imm) := rfl

theorem resolve_word : (Operand.word w).resolve p s = .ok (w, .mem (p + 1)) := rfl

theorem throughPointer_of_resolves (h : Resolves s a b c) : throughPointer a s = .ok (c, .mem b) := by
  obtain ⟨ha, q, hq, ⟨hnum, hval⟩, hb, hc⟩ := h
  exact (throughPointer_ok a s c _).2 ⟨q, b, by omega, hq, hnum, hval, by omega, hc, rfl⟩

theorem resolve_shortPointer (h : Resolves s xx b c) : (Operand.shortPointer xx).resolve p s = .ok (c, .mem b) :=
  throughPointer_of_resolves h

/-- An operand word that names an address resolves through the pointer cell there. -/
theorem resolve_wordPointer_of_pointsTo (hw : PointsTo w a) : (Operand.wordPointer w).resolve p s = throughPointer a s := by
  simp [Operand.resolve, operandNW, (addr_ok w (.mem (p + 1)) a).2 hw]

theorem resolve_wordPointer (hw : PointsTo w a) (h : Resolves s a b c) : (Operand.wordPointer w).resolve p s = .ok (c, .mem b) := by
  rw [resolve_wordPointer_of_pointsTo hw, throughPointer_of_resolves h]

end

/-! ### Each normal form, completing -/

section
variable {i : Instr} {s : State} {p : Nat} {x : CellValue × Src} {o : Operand}

theorem exec_push_form (hi : i.action = .operate .push o) (hp : s.ip = some p) (hx : o.resolve p s = .ok x) (hpos : 0 < s.sp)
    (hle : s.sp ≤ 9999) :
    ∃ m, exec i s = .next { s with mem := m, sp := s.sp - 1, ip := some (p + o.words), status := .ok } ∧
      Memory.Updated s.mem m (s.sp - 1) x.1 :=
  ⟨s.mem.write (s.sp - 1) x.1, exec_operate hi hp hx (push_of_pos x.1 hpos hle), Memory.read_write s.mem (s.sp - 1) x.1⟩

theorem exec_load_form (hi : i.action = .operate .load o) (hp : s.ip = some p) (hx : o.resolve p s = .ok x) :
    exec i s = .next { s with acc := some x.1, ip := some (p + o.words), status := .ok } :=
  exec_operate hi hp hx rfl

theorem exec_store_form {a : Nat} (hi : i.action = .operate (.store a) o) (hp : s.ip = some p) (hx : o.resolve p s = .ok x)
    (ha : a ≤ 9999) :
    ∃ m, exec i s = .next { s with mem := m, ip := some (p + o.words), status := .ok } ∧ Memory.Updated s.mem m a x.1 :=
  ⟨s.mem.write a x.1, exec_operate hi hp hx ((memWrite_ok s _ a x.1).2 ⟨by omega, rfl⟩), Memory.read_write s.mem a x.1⟩

/-- R152: `acc` numeric, the operand numeric, the exact result in range. -/
theorem exec_arith_form {op : ArithOp} {u : CellValue} {r : Int} (hi : i.action = .operate (.arith op) o) (hp : s.ip = some p)
    (hu : s.acc = some u) (hx : o.resolve p s = .ok x) (h : Computes op.apply u x.1 r) :
    exec i s = .next (s.afterArith r p o.words) := by
  obtain ⟨hnum, hnum', rfl, hlo, hhi⟩ := h
  exact exec_operate hi hp hx ((arith_ok op x.1 x.2 s _).2 ⟨u, hu, hnum, hnum', hlo, hhi, rfl⟩)

theorem exec_addToCell_form {a : Nat} {d : Int} {c : CellValue} (hi : i.action = .addToCell a d) (hp : s.ip = some p) (ha : a ≤ 9999)
    (hc : s.mem.read a = some c) (hnum : c.d0.val ≤ 1) (hlo : -9999 ≤ decodeNum c + d) (hhi : decodeNum c + d ≤ 9999) :
    ∃ m, exec i s = .next { s with
        mem := m, zero := decide (decodeNum c + d = 0), negative := decide (decodeNum c + d < 0), ip := some (p + 1), status := .ok } ∧
      Memory.Updated s.mem m a (encodeNum (decodeNum c + d)) := by
  have hadd := (addToCell_ok a d s _).2 ⟨c, by omega, hc, hnum, hlo, hhi, rfl⟩
  exact ⟨s.mem.write a (encodeNum (decodeNum c + d)), exec_of_rule_ok hp (by rw [hi, Action.rule, hadd, ok_bind]; rfl),
    Memory.read_write s.mem a _⟩

/-- A branch goes where its condition says. -/
theorem exec_branch_form {k : Condition} {a : Nat} (b : Prop) [Decidable b] (hi : i.action = .branch k a) (hp : s.ip = some p)
    (hb : k.test s = .ok (decide b)) :
    exec i s = .next { s with ip := some (if b then a else p + 1), status := .ok } := by
  refine exec_of_rule_ok hp ?_
  rw [hi, Action.rule, hb, ok_bind]
  by_cases h : b <;> simp [h, State.jump, State.finish]

end

/-! ### The obligations -/

/-- Settles O17: INC adds 1 and DEC adds -1; the other end of the range is never passed. -/
theorem incAndDecChangeTheirCell : Obligations.IncAndDecChangeTheirCell := by
  intro s p a c ha hp hc hnum
  obtain ⟨hlo, hhi⟩ := decodeNum_range c
  refine ⟨fun h => exec_addToCell_form rfl hp (by omega) hc hnum (by omega) h, fun h => ?_⟩
  rw [Int.sub_eq_add_neg] at h ⊢
  exact exec_addToCell_form rfl hp (by omega) hc hnum h (by omega)

/-- Settles O18: PUSH is a push of `acc`; POP reads the top. -/
theorem pushAndPopTransport : Obligations.PushAndPopTransport := by
  intro s p v hp
  refine ⟨fun hv hpos hle => exec_push_form rfl hp (resolve_acc hv) hpos hle, fun hlt hle hread => ?_⟩
  exact exec_pop_of_pop_ok hp ((pop_ok s _ v).2 ⟨hlt, by omega, hread, rfl⟩)

/-- Settles O19: LOAD takes its operand from the cell, STORE from `acc`. -/
theorem loadAndStoreTransport : Obligations.LoadAndStoreTransport := fun _ _ _ _ ha hp =>
  ⟨fun hc => exec_load_form rfl hp (resolve_direct ha hc), fun hv => exec_store_form rfl hp (resolve_acc hv) ha⟩

/-- Settles O20: arithmetic with a direct operand. -/
theorem directArithmeticComputes : Obligations.DirectArithmeticComputes := by
  intro s p a u c r ha hp hu hc
  exact ⟨fun h => exec_arith_form (op := .add) rfl hp hu (resolve_direct ha hc) h,
    fun h => exec_arith_form (op := .sub) rfl hp hu (resolve_direct ha hc) h,
    fun h => exec_arith_form (op := .mul) rfl hp hu (resolve_direct ha hc) h⟩

/-- The magnitude of a word is 0 exactly when its four digits are. -/
theorem magnitude_eq_zero (u : CellValue) :
    magnitude u = 0 ↔ u.d1.val = 0 ∧ u.d2.val = 0 ∧ u.d3.val = 0 ∧ u.d4.val = 0 := by
  rw [magnitude_eq]; omega

/-- Settles O22: the two tests of `acc`. -/
theorem accumulatorBranches : Obligations.AccumulatorBranches := by
  intro s p a u hp hu
  have hread := (accRead_ok s u).2 hu
  refine ⟨exec_branch_form _ rfl hp ?_, exec_branch_form _ rfl hp ?_⟩
  · rw [Condition.test, hread, ok_bind]
  · rw [Condition.test, hread, ok_bind, decide_eq_decide.2 (magnitude_eq_zero u)]

/-- Settles O23: the two tests of the flags. -/
theorem flagBranches : Obligations.FlagBranches := by
  intro s p a hp
  refine ⟨exec_branch_form _ rfl hp ?_, exec_branch_form _ rfl hp ?_⟩
  · rw [Condition.test, Bool.decide_eq_true]
  · rw [Condition.test, Bool.decide_eq_true]

/-- Settles O24: a push of each family-9 operand. -/
theorem pushFormsPushTheirOperand : Obligations.PushFormsPushTheirOperand := by
  intro s p hp hpos hle
  exact ⟨fun xx _ => exec_push_form rfl hp (resolve_short (xx := xx)) hpos hle,
    fun w => exec_push_form rfl hp (resolve_word (w := w)) hpos hle,
    fun xx b c _ h => exec_push_form rfl hp (resolve_shortPointer h) hpos hle,
    fun w a b c hw h => exec_push_form rfl hp (resolve_wordPointer hw h) hpos hle⟩

/-- Settles O25: a load of each family-9 operand. -/
theorem loadFormsLoadTheirOperand : Obligations.LoadFormsLoadTheirOperand := by
  intro s p hp
  exact ⟨fun xx _ => exec_load_form rfl hp (resolve_short (xx := xx)),
    fun w => exec_load_form rfl hp (resolve_word (w := w)),
    fun xx b c _ h => exec_load_form rfl hp (resolve_shortPointer h),
    fun w a b c hw h => exec_load_form rfl hp (resolve_wordPointer hw h)⟩

/-- A short immediate is a numeric operand with the value of its field. -/
theorem computes_zext5 {op : Int → Int → Int} {u : CellValue} {xx : Nat} (hxx : xx ≤ 99) (hu : u.d0.val ≤ 1)
    (hlo : -9999 ≤ op (decodeNum u) xx) (hhi : op (decodeNum u) xx ≤ 9999) :
    Computes op u (zext5 xx) (op (decodeNum u) xx) :=
  ⟨hu, Nat.zero_le 1, by rw [decodeNum_zext5 hxx], hlo, hhi⟩

/-- Settles O26: a short immediate by its value, an operand word as it is. -/
theorem immediateArithmeticComputes : Obligations.ImmediateArithmeticComputes := by
  intro s p u hp hu
  obtain ⟨hlo, hhi⟩ := decodeNum_range u
  refine ⟨fun xx hxx hnum => ⟨fun h => ?_, fun h => ?_, fun h h' => ?_⟩, fun w r => ⟨fun h => ?_, fun h => ?_, fun h => ?_⟩⟩
  · exact exec_arith_form (op := .add) rfl hp hu resolve_short (computes_zext5 (op := (· + ·)) hxx hnum (by omega) h)
  · exact exec_arith_form (op := .sub) rfl hp hu resolve_short (computes_zext5 (op := (· - ·)) hxx hnum h (by omega))
  · exact exec_arith_form (op := .mul) rfl hp hu resolve_short (computes_zext5 (op := (· * ·)) hxx hnum h h')
  · exact exec_arith_form (op := .add) rfl hp hu resolve_word h
  · exact exec_arith_form (op := .sub) rfl hp hu resolve_word h
  · exact exec_arith_form (op := .mul) rfl hp hu resolve_word h

/-- Settles O27: arithmetic with an operand through a pointer. -/
theorem indirectArithmeticComputes : Obligations.IndirectArithmeticComputes := by
  intro s p u hp hu
  refine ⟨fun xx b c r _ hr => ⟨fun h => ?_, fun h => ?_, fun h => ?_⟩, fun w a b c r hw hr => ⟨fun h => ?_, fun h => ?_, fun h => ?_⟩⟩
  · exact exec_arith_form (op := .add) rfl hp hu (resolve_shortPointer hr) h
  · exact exec_arith_form (op := .sub) rfl hp hu (resolve_shortPointer hr) h
  · exact exec_arith_form (op := .mul) rfl hp hu (resolve_shortPointer hr) h
  · exact exec_arith_form (op := .add) rfl hp hu (resolve_wordPointer hw hr) h
  · exact exec_arith_form (op := .sub) rfl hp hu (resolve_wordPointer hw hr) h
  · exact exec_arith_form (op := .mul) rfl hp hu (resolve_wordPointer hw hr) h

end Sys2Proof.Machine
end

section
/-!
Proofs of the obligations on the instructions that raise a fault (60_exceptions.md sections 4 and 5, decision D21): an operand that does not
resolve, then an operation that fails on it, each with the faults of the shared operations in their order.
-/

namespace Sys2Proof.Machine

/-! ### INC and DEC (R120 to R122) -/

theorem exec_addToCell_error {i : Instr} {s : State} {p a : Nat} {d : Int} {f : Fault} (hi : i.action = .addToCell a d)
    (hp : s.ip = some p) (hf : addToCell a d s = .error f) : exec i s = .next (s.takeFault f) :=
  exec_of_rule_error hp (by rw [hi, Action.rule, hf, error_bind])

theorem addToCell_filler {s : State} {a : Nat} (ha : a ≤ 9999) (hc : s.mem.read a = none) (d : Int) :
    addToCell a d s = .error (.invalidWord (.mem a)) :=
  (addToCell_error a d s _ (by omega)).2 (.inl ⟨hc, rfl⟩)

theorem addToCell_notNumeric {s : State} {a : Nat} {c : CellValue} (ha : a ≤ 9999) (hc : s.mem.read a = some c) (h : 2 ≤ c.d0.val)
    (d : Int) : addToCell a d s = .error (.invalidWord (.mem a)) :=
  (addToCell_error a d s _ (by omega)).2 (.inr ⟨c, hc, .inl ⟨by omega, rfl⟩⟩)

theorem addToCell_overflow {s : State} {a : Nat} {c : CellValue} {d r : Int} (ha : a ≤ 9999) (hc : s.mem.read a = some c)
    (hnum : c.d0.val ≤ 1) (hr : decodeNum c + d = r) (h : r < -9999 ∨ 9999 < r) : addToCell a d s = .error (.arithmeticOverflow r) :=
  (addToCell_error a d s _ (by omega)).2 (.inr ⟨c, hc, .inr ⟨hnum, hr ▸ h, hr ▸ rfl⟩⟩)

/-- Settles O29: a cell that is no number, and one step past each end of the range. -/
theorem incAndDecTrap : Obligations.IncAndDecTrap := by
  intro s p a c ha hp hc
  have ha' : a ≤ 9999 := by omega
  refine ⟨fun h => ⟨?_, ?_⟩, fun h => ?_, fun h => ?_⟩
  · exact exec_addToCell_error rfl hp (addToCell_notNumeric ha' hc h 1)
  · exact exec_addToCell_error rfl hp (addToCell_notNumeric ha' hc h (-1))
  · subst h
    exact exec_addToCell_error rfl hp (addToCell_overflow ha' hc (by decide) rfl (by decide))
  · subst h
    exact exec_addToCell_error rfl hp (addToCell_overflow ha' hc (by decide) rfl (by decide))

/-! ### Operands that do not resolve (R22, R57, R183, R184) -/

theorem resolve_direct_filler {s : State} {p a : Nat} (ha : a ≤ 9999) (hc : s.mem.read a = none) :
    (Operand.direct a).resolve p s = .error (.invalidWord (.mem a)) :=
  (operandDirect_error a s _).2 ((dataRead_error s a _).2 (.inr ⟨by omega, hc, rfl⟩))

/-- Settles O28: INC and DEC read the cell first, and the other four resolve their operand first. -/
theorem directReadOfFillerTraps : Obligations.DirectReadOfFillerTraps := by
  intro s p a i ha hp hc hi
  simp only [List.mem_cons, List.not_mem_nil, or_false] at hi
  obtain rfl | rfl | rfl | rfl | rfl | rfl := hi
  · exact exec_addToCell_error rfl hp (addToCell_filler ha hc 1)
  · exact exec_addToCell_error rfl hp (addToCell_filler ha hc (-1))
  all_goals exact exec_operate_resolve_error rfl hp (resolve_direct_filler ha hc)

theorem resolve_acc_unset {s : State} {p : Nat} (hacc : s.acc = none) : Operand.acc.resolve p s = .error .accUnset := by
  rw [Operand.resolve, (accRead_error s _).2 ⟨hacc, rfl⟩, error_bind]

theorem exec_branch_error {i : Instr} {s : State} {p a : Nat} {k : Condition} {f : Fault} (hi : i.action = .branch k a)
    (hp : s.ip = some p) (hf : k.test s = .error f) : exec i s = .next (s.takeFault f) :=
  exec_of_rule_error hp (by rw [hi, Action.rule, hf, error_bind])

/-- Settles O30: PUSH and STORE resolve `acc` before anything else, and BRN and BRZ test it. -/
theorem unsetAccumulatorTraps : Obligations.UnsetAccumulatorTraps := by
  intro s p a i hp hacc hi
  have hread := (accRead_error s .accUnset).2 ⟨hacc, rfl⟩
  simp only [List.mem_cons, List.not_mem_nil, or_false] at hi
  obtain rfl | rfl | rfl | rfl := hi
  · exact exec_operate_resolve_error rfl hp (resolve_acc_unset hacc)
  · exact exec_operate_resolve_error rfl hp (resolve_acc_unset hacc)
  · exact exec_branch_error rfl hp (by rw [Condition.test, hread, error_bind])
  · exact exec_branch_error rfl hp (by rw [Condition.test, hread, error_bind])

/-- The normal forms of the ten indirect instructions. -/
theorem action_of_shortIndirect {i : Instr} {a : Nat} (h : shortIndirect i = some a) :
    ∃ k, i.action = .operate k (.shortPointer a) := by
  cases i <;> cases h <;> exact ⟨_, rfl⟩

theorem action_of_wordIndirect {i : Instr} {w : CellValue} (h : wordIndirect i = some w) :
    ∃ k, i.action = .operate k (.wordPointer w) := by
  cases i <;> cases h <;> exact ⟨_, rfl⟩

/-- The pointer cell of an indirect instruction is at `a`. -/
theorem resolves_throughPointer {i : Instr} {s : State} {a : Nat} (p : Nat)
    (h : shortIndirect i = some a ∨ ∃ w, wordIndirect i = some w ∧ PointsTo w a) :
    ∃ k o, i.action = .operate k o ∧ o.resolve p s = throughPointer a s := by
  obtain h | ⟨w, h, hw⟩ := h
  · obtain ⟨k, hk⟩ := action_of_shortIndirect h
    exact ⟨k, _, hk, rfl⟩
  · obtain ⟨k, hk⟩ := action_of_wordIndirect h
    exact ⟨k, _, hk, resolve_wordPointer_of_pointsTo hw⟩

/-- `Addr` refuses a word that is no number. -/
theorem addr_notNumeric {c : CellValue} (h : 2 ≤ c.d0.val) (src : Src) : addr c src = .error (.invalidWord src) :=
  (addr_error c src _).2 (.inl ⟨by omega, rfl⟩)

/-- `Addr` refuses a negative number. -/
theorem addr_negative {c : CellValue} (hnum : c.d0.val ≤ 1) (h : decodeNum c < 0) (src : Src) :
    addr c src = .error (.addressOutOfRange (decodeNum c)) :=
  (addr_error c src _).2 (.inr ⟨hnum, h, rfl⟩)

/-- R183: the pointer cell's content is refused. -/
theorem throughPointer_addr_error {s : State} {a : Nat} {q : CellValue} {f : Fault} (ha : a ≤ 9999) (hq : s.mem.read a = some q)
    (hf : addr q (.mem a) = .error f) : throughPointer a s = .error f :=
  (throughPointer_error a s f).2 (.inr ⟨q, (dataRead_ok s a q).2 ⟨by omega, hq⟩, .inl hf⟩)

/-- Settles O32: the reads on the way to the operand, in their order, before the operation. -/
theorem indirectOperandTrapsInOrder : Obligations.IndirectOperandTrapsInOrder := by
  intro s p i hp
  refine ⟨fun a ha hi => ?_, fun w hw => ?_⟩
  · obtain ⟨k, o, hk, ho⟩ := resolves_throughPointer (s := s) p hi
    have hfault {f : Fault} (hf : throughPointer a s = .error f) : exec i s = .next (s.afterFault f) :=
      exec_operate_resolve_error hk hp (ho.trans hf)
    refine ⟨fun hc => ?_, fun q hq => ⟨fun h => ?_, fun hnum h => ?_, fun b hb hc => ?_⟩⟩
    · exact hfault ((throughPointer_error a s _).2 (.inl ((dataRead_error s a _).2 (.inr ⟨by omega, hc, rfl⟩))))
    · exact hfault (throughPointer_addr_error ha hq (addr_notNumeric h _))
    · exact hfault (throughPointer_addr_error ha hq (addr_negative hnum h _))
    · have haddr : addr q (.mem a) = .ok b := (addr_ok q _ b).2 hb
      have hle := addr_le haddr
      exact hfault ((throughPointer_error a s _).2 (.inr ⟨q, (dataRead_ok s a q).2 ⟨by omega, hq⟩,
        .inr ⟨b, haddr, (dataRead_error s b _).2 (.inr ⟨by omega, hc, rfl⟩)⟩⟩))
  · obtain ⟨k, hk⟩ := action_of_wordIndirect hw
    have hfault {f : Fault} (hf : addr w (.mem (p + 1)) = .error f) : exec i s = .next (s.afterFault f) :=
      exec_operate_resolve_error hk hp ((operandNW_error w p s f).2 (.inl hf))
    exact ⟨fun h => hfault (addr_notNumeric h _), fun hnum h => hfault (addr_negative hnum h _)⟩

/-! ### Operations that fail on a resolved operand (R131, R152) -/

/-- Settles O33: a full stack takes no resolved operand. -/
theorem pushFormsOverflow : Obligations.PushFormsOverflow := by
  intro s p hp hsp
  have hfull (v : CellValue) : push s v = .error (.stackOverflow 0) := push_error_of_sp_zero s v hsp
  exact ⟨fun xx _ => exec_operate_act_error rfl hp (resolve_short (xx := xx)) (hfull _),
    fun w => exec_operate_act_error rfl hp (resolve_word (w := w)) (hfull _),
    fun xx b c _ h => exec_operate_act_error rfl hp (resolve_shortPointer h) (hfull _),
    fun w a b c hw h => exec_operate_act_error rfl hp (resolve_wordPointer hw h) (hfull _)⟩

/-- The 15 accumulator arithmetic forms are arithmetic on an operand that resolves. -/
theorem ArithForm.resolves {s : State} {p : Nat} {i : Instr} {op : Int → Int → Int} {c : CellValue} {src : Src}
    (h : ArithForm s p i op c src) :
    ∃ (k : ArithOp) (o : Operand), i.action = .operate (.arith k) o ∧ o.resolve p s = .ok (c, src) ∧ op = k.apply := by
  cases h with
  | add a _ ha hc | sub a _ ha hc | mul a _ ha hc => exact ⟨_, _, rfl, resolve_direct ha hc, rfl⟩
  | addi | subi | muli => exact ⟨_, _, rfl, resolve_short, rfl⟩
  | addiw | subiw | muliw => exact ⟨_, _, rfl, resolve_word, rfl⟩
  | addn _ _ _ _ hr | subn _ _ _ _ hr | muln _ _ _ _ hr => exact ⟨_, _, rfl, resolve_shortPointer hr, rfl⟩
  | addnw _ _ _ _ hw hr | subnw _ _ _ _ hw hr | mulnw _ _ _ _ hw hr =>
    exact ⟨_, _, rfl, resolve_wordPointer hw hr, rfl⟩

/-- Settles O31: the order of R152 for whichever form resolved its operand. -/
theorem arithmeticTrapsInOrder : Obligations.ArithmeticTrapsInOrder := by
  intro s p i op c src hp hform
  obtain ⟨k, o, hi, hx, rfl⟩ := hform.resolves
  have hfault {f : Fault} (hf : arith k c src s = .error f) : exec i s = .next (s.afterFault f) :=
    exec_operate_act_error hi hp hx hf
  refine ⟨fun hu => ?_, fun u hu h => ?_, fun u hu hnum h => ?_, fun u r hu hnum hnum' hr h => ?_⟩
  · exact hfault ((arith_error k c src s _).2 (.inl ⟨hu, rfl⟩))
  · exact hfault ((arith_error k c src s _).2 (.inr ⟨u, hu, .inl ⟨by omega, rfl⟩⟩))
  · exact hfault ((arith_error k c src s _).2 (.inr ⟨u, hu, .inr (.inl ⟨hnum, by omega, rfl⟩)⟩))
  · subst hr
    exact hfault ((arith_error k c src s _).2 (.inr ⟨u, hu, .inr (.inr ⟨hnum, hnum', h, rfl⟩)⟩))

/-! ### The table of faults (R236) -/

/-- The faults of reading an operand. -/
def Operand.faults (o : Operand) : List FaultName :=
  match o with
  | .acc => [.accUnset]
  | .direct _ => [.invalidWord]
  | .short _ | .word _ => []
  | .shortPointer _ | .wordPointer _ => [.invalidWord, .addressOutOfRange]

/-- The faults of an operation on an operand. -/
def Operation.faults (k : Operation) : List FaultName :=
  match k with
  | .push => [.stackOverflow]
  | .load | .store _ => []
  | .arith _ => [.accUnset, .invalidWord, .arithmeticOverflow]

def Condition.faults (k : Condition) : List FaultName :=
  match k with
  | .accNegative | .accZero => [.accUnset]
  | .always | .negative | .zero => []

def Action.faults (x : Action) : List FaultName :=
  match x with
  | .halt => []
  | .addToCell _ _ => [.invalidWord, .arithmeticOverflow]
  | .pop => [.stackUnderflow]
  | .branch k _ => k.faults
  | .operate k o => o.faults ++ k.faults

/-- The faults of a normal form are those of the instruction's row. -/
theorem faults_subset_mayRaise (i : Instr) : i.action.faults ⊆ mayRaise i := by
  cases i <;> simp [Instr.action, Action.faults, Operand.faults, Operation.faults, Condition.faults, mayRaise]

theorem Condition.test_error {k : Condition} {s : State} {f : Fault} (h : k.test s = .error f) : faultName f ∈ k.faults := by
  cases k with
  | always | negative | zero => cases h
  | accNegative | accZero =>
    obtain h | ⟨_, _, h⟩ := (bind_eq_error _ _ _).1 h
    · obtain ⟨-, rfl⟩ := (accRead_error s f).1 h
      exact List.mem_singleton_self _
    · cases h

theorem addr_error_name {c : CellValue} {src : Src} {f : Fault} (h : addr c src = .error f) :
    faultName f ∈ [FaultName.invalidWord, .addressOutOfRange] := by
  obtain ⟨-, rfl⟩ | ⟨-, -, rfl⟩ := (addr_error c src f).1 h <;> simp [faultName]

theorem dataRead_error_name {s : State} {a : Nat} {f : Fault} (ha : a ≤ 9999) (h : dataRead s a = .error f) :
    faultName f = .invalidWord := by
  obtain ⟨hn, -⟩ | ⟨-, -, rfl⟩ := (dataRead_error s a f).1 h
  · omega
  · rfl

theorem throughPointer_error_name {s : State} {a : Nat} {f : Fault} (h : throughPointer a s = .error f) :
    faultName f ∈ [FaultName.invalidWord, .addressOutOfRange] := by
  have hread {a : Nat} (h : dataRead s a = .error f) : faultName f ∈ [FaultName.invalidWord, .addressOutOfRange] := by
    obtain ⟨-, rfl⟩ | ⟨-, -, rfl⟩ := (dataRead_error s a f).1 h <;> simp [faultName]
  obtain h | ⟨q, -, h | ⟨b, -, h⟩⟩ := (throughPointer_error a s f).1 h
  · exact hread h
  · exact addr_error_name h
  · exact hread h

theorem Operand.resolve_error {o : Operand} {p : Nat} {s : State} {f : Fault} (ho : o.Addressed) (h : o.resolve p s = .error f) :
    faultName f ∈ o.faults := by
  cases o with
  | acc =>
    obtain h | ⟨_, _, h⟩ := (bind_eq_error _ _ _).1 h
    · obtain ⟨-, rfl⟩ := (accRead_error s f).1 h
      exact List.mem_singleton_self _
    · cases h
  | direct a =>
    rw [dataRead_error_name ho ((operandDirect_error a s f).1 h)]
    exact List.mem_singleton_self _
  | short | word => cases h
  | shortPointer xx => exact throughPointer_error_name h
  | wordPointer w =>
    obtain h | ⟨a, -, h⟩ := (operandNW_error w p s f).1 h
    · exact addr_error_name h
    · exact throughPointer_error_name h

theorem Operation.act_error {k : Operation} {c : CellValue} {src : Src} {s : State} {f : Fault} (hs : s.Inv)
    (hk : k.Addressed) (h : k.act c src s = .error f) : faultName f ∈ k.faults := by
  cases k with
  | push =>
    obtain ⟨-, rfl⟩ | ⟨hlt, -⟩ := (push_error s c f).1 h
    · exact List.mem_singleton_self _
    · have hsp := hs.sp_le
      have hbp := hs.bp_eq
      omega
  | load => cases h
  | store a =>
    have ha : a < 10000 := Nat.lt_succ_of_le hk
    rw [Operation.act, memWrite_eq, if_pos ha] at h
    cases h
  | arith op =>
    obtain ⟨-, rfl⟩ | ⟨u, -, ⟨-, rfl⟩ | ⟨-, -, rfl⟩ | ⟨-, -, -, rfl⟩⟩ := (arith_error op c src s f).1 h <;>
      simp [Operation.faults, faultName]

theorem addToCell_error_name {a : Nat} {d : Int} {s : State} {f : Fault} (ha : a ≤ 9999) (h : addToCell a d s = .error f) :
    faultName f ∈ [FaultName.invalidWord, .arithmeticOverflow] := by
  obtain ⟨-, rfl⟩ | ⟨c, -, ⟨-, rfl⟩ | ⟨-, -, rfl⟩⟩ := (addToCell_error a d s f (by omega)).1 h <;> simp [faultName]

/-- In a good state `Pop` underflows or succeeds. -/
theorem pop_error_of_inv {s : State} {f : Fault} (hs : s.Inv) (h : pop s = .error f) : f = .stackUnderflow s.sp := by
  obtain ⟨-, hf⟩ | ⟨hlt, -⟩ := (pop_error s f).1 h
  · exact hf
  · obtain ⟨v, -, hpop⟩ := pop_of_lt hs hlt
    rw [hpop] at h
    cases h

theorem Action.rule_error {x : Action} {s : State} {p : Nat} {f : Fault} (hs : s.Inv) (hx : x.Addressed)
    (h : x.rule s p = .error f) : faultName f ∈ x.faults := by
  cases x with
  | halt => cases h
  | addToCell a d =>
    obtain h | ⟨_, _, h⟩ := (bind_eq_error _ _ _).1 h
    · exact addToCell_error_name hx h
    · cases h
  | pop =>
    obtain h | ⟨_, _, h⟩ := (bind_eq_error _ _ _).1 h
    · rw [pop_error_of_inv hs h]; exact List.mem_singleton_self _
    · cases h
  | branch k a =>
    obtain h | ⟨_, _, h⟩ := (bind_eq_error _ _ _).1 h
    · exact Condition.test_error h
    · cases h
  | operate k o =>
    obtain h | ⟨⟨c, src⟩, _, h⟩ := (bind_eq_error _ _ _).1 h
    · exact List.mem_append_left _ (Operand.resolve_error hx.2 h)
    · obtain h | ⟨_, _, h⟩ := (bind_eq_error _ _ _).1 h
      · exact List.mem_append_right _ (Operation.act_error hs hx.1 h)
      · cases h

/-- An instruction that reports a fault has met it in its rule. -/
theorem rule_error_of_exec {i : Instr} {s t : State} {p : Nat} {f : Fault} (hp : s.ip = some p) (h : exec i s = .next t)
    (hf : t.status = .fault f) : i.action.rule s p = .error f := by
  cases hr : i.action.rule s p with
  | error g =>
    rw [exec_of_rule_error hp hr] at h
    cases h; cases hf; rfl
  | ok u =>
    rw [exec_of_rule_ok hp hr] at h
    cases h
    exact absurd hf ((Action.change_of_rule hr).status_ne_fault f)

/-- Settles O34: the faults of the form's rule, and the row they are in. -/
theorem faultsFollowTheTable : Obligations.FaultsFollowTheTable := by
  intro i s t f hwf hs hip h hf
  obtain ⟨p, hp⟩ := Option.ne_none_iff_exists'.1 hip
  exact faults_subset_mayRaise i (Action.rule_error hs (addressed_of_wellFormed hwf) (rule_error_of_exec hp h hf))

end Sys2Proof.Machine
end

section
/-!
Proof of the obligation on the instructions that do not read `acc` (10_state.md section 2): the shared operations but `accRead` and `arith`
do not look at `acc`, so the computation of such an instruction is the same whatever `acc` holds, up to the value it leaves there.
-/

namespace Sys2Proof.Machine

/-- `s` with `acc` replaced, perhaps by `unset`. -/
def State.withAcc (s : State) (v : Option CellValue) : State := { s with acc := v }

/-- What a computation gives, with `acc` replaced. -/
def withAccResult (v : Option CellValue) (r : Except Fault State) : Except Fault State := r.map (State.withAcc · v)

@[simp] theorem withAcc_ip (s : State) (v : Option CellValue) : (s.withAcc v).ip = s.ip := rfl
@[simp] theorem withAcc_sp (s : State) (v : Option CellValue) : (s.withAcc v).sp = s.sp := rfl
@[simp] theorem withAcc_bp (s : State) (v : Option CellValue) : (s.withAcc v).bp = s.bp := rfl
@[simp] theorem withAcc_mem (s : State) (v : Option CellValue) : (s.withAcc v).mem = s.mem := rfl

theorem withAccResult_bind {α : Type} (v : Option CellValue) (r : Except Fault α) (k : α → Except Fault State) :
    withAccResult v (r >>= k) = r >>= fun a => withAccResult v (k a) := by
  cases r <;> rfl

section
variable (s : State) (v : Option CellValue)

@[simp] theorem dataRead_withAcc (a : Nat) : dataRead (s.withAcc v) a = dataRead s a := by
  simp only [dataRead, memRead_eq, withAcc_mem]

theorem push_withAcc (c : CellValue) : push (s.withAcc v) c = withAccResult v (push s c) := by
  simp only [push, memWrite_eq, withAcc_sp, withAcc_mem]
  split
  · rfl
  · split <;> rfl

theorem addToCell_withAcc (a : Nat) (d : Int) : addToCell a d (s.withAcc v) = withAccResult v (addToCell a d s) := by
  simp only [addToCell, dataRead_withAcc, withAccResult_bind, memWrite_eq, withAcc_mem]
  split <;> rfl

/-- `Pop` gives the same value. -/
theorem pop_withAcc : pop (s.withAcc v) = (pop s).map fun x => (x.1, x.2.withAcc v) := by
  simp only [pop, dataRead_withAcc, withAcc_sp, withAcc_bp]
  split
  · rfl
  · cases dataRead s s.sp <;> rfl

end

/-! ### The normal forms that do not read `acc` -/

def Operand.readsAcc (o : Operand) : Bool :=
  match o with
  | .acc => true
  | _ => false

def Operation.readsAcc (k : Operation) : Bool :=
  match k with
  | .arith _ => true
  | _ => false

def Condition.readsAcc (k : Condition) : Bool :=
  match k with
  | .accNegative | .accZero => true
  | _ => false

def Action.readsAcc (x : Action) : Bool :=
  match x with
  | .branch k _ => k.readsAcc
  | .operate k o => o.readsAcc || k.readsAcc
  | _ => false

theorem readsAcc_eq (i : Instr) : readsAcc i = i.action.readsAcc := by cases i <;> rfl

theorem resolve_withAcc {o : Operand} (ho : o.readsAcc = false) (s : State) (v : Option CellValue) (p : Nat) :
    o.resolve p (s.withAcc v) = o.resolve p s := by
  cases o with
  | acc => cases ho
  | direct a => simp only [Operand.resolve, operandDirect, dataRead_withAcc]
  | short | word => rfl
  | shortPointer xx => simp only [Operand.resolve, operandN, throughPointer, dataRead_withAcc]
  | wordPointer w => simp only [Operand.resolve, operandNW, throughPointer, dataRead_withAcc]

theorem test_withAcc {k : Condition} (hk : k.readsAcc = false) (s : State) (v : Option CellValue) :
    k.test (s.withAcc v) = k.test s := by
  cases k with
  | accNegative | accZero => cases hk
  | always | negative | zero => rfl

/-- A form that neither reads nor writes `acc` leaves the value put there. -/
theorem rule_withAcc_of_keeps {x : Action} (hr : x.readsAcc = false) (hw : x.writesAcc = false) (s : State) (v : Option CellValue)
    (p : Nat) : x.rule (s.withAcc v) p = withAccResult v (x.rule s p) := by
  cases x with
  | halt => rfl
  | addToCell a d =>
    simp only [Action.rule, addToCell_withAcc]
    cases Machine.addToCell a d s <;> rfl
  | pop => cases hw
  | branch k a =>
    simp only [Action.rule, test_withAcc hr]
    cases k.test s with
    | error f => rfl
    | ok b => cases b <;> rfl
  | operate k o =>
    obtain ⟨ho, hk⟩ := Bool.or_eq_false_iff.1 hr
    simp only [Action.rule, resolve_withAcc ho, withAccResult_bind]
    refine bind_congr fun ⟨c, src⟩ => ?_
    cases k with
    | push =>
      simp only [Operation.act, push_withAcc]
      cases Machine.push s c <;> rfl
    | store a =>
      simp only [Operation.act, memWrite_eq, withAcc_mem]
      split <;> rfl
    | load => cases hw
    | arith op => cases hk

/-- A form that does not read `acc` but writes it puts the same value there. -/
theorem rule_withAcc_of_writes {x : Action} (hr : x.readsAcc = false) (hw : x.writesAcc = true) (s : State) (v : Option CellValue)
    (p : Nat) : x.rule (s.withAcc v) p = x.rule s p := by
  cases x with
  | halt | addToCell | branch => cases hw
  | pop =>
    simp only [Action.rule, pop_withAcc]
    cases Machine.pop s <;> rfl
  | operate k o =>
    obtain ⟨ho, hk⟩ := Bool.or_eq_false_iff.1 hr
    simp only [Action.rule, resolve_withAcc ho]
    cases k with
    | push | store => cases hw
    | load => rfl
    | arith op => cases hk

/-! ### The obligation -/

theorem perform_withAcc_of_keeps {s t : State} {v : Option CellValue} {rule rule' : Nat → Except Fault State}
    (hrule : ∀ p, rule' p = withAccResult v (rule p)) (h : perform s rule = .next t) :
    perform (s.withAcc v) rule' = .next (t.withAcc v) := by
  unfold perform at h ⊢
  rw [withAcc_ip]
  cases hp : s.ip with
  | none => rw [hp] at h; cases h; rfl
  | some p =>
    simp only [hp, hrule] at h ⊢
    cases hr : rule p <;> (rw [hr] at h; cases h; rfl)

/-- Only a fault lets the value put in `acc` show. -/
theorem perform_withAcc_of_writes {s t : State} {v : Option CellValue} {rule rule' : Nat → Except Fault State}
    (hrule : ∀ p, rule' p = rule p) (h : perform s rule = .next t) :
    (perform (s.withAcc v) rule' = .next t ∧ ∃ p, rule p = .ok t) ∨
    (perform (s.withAcc v) rule' = .next (t.withAcc v) ∧ ∃ f, t.status = .fault f) := by
  unfold perform at h ⊢
  rw [withAcc_ip]
  cases hp : s.ip with
  | none => rw [hp] at h; cases h; exact .inr ⟨rfl, _, rfl⟩
  | some p =>
    simp only [hp, hrule] at h ⊢
    cases hr : rule p with
    | ok u => rw [hr] at h; cases h; exact .inl ⟨rfl, p, hr⟩
    | error f => rw [hr] at h; cases h; exact .inr ⟨rfl, f, rfl⟩

/-- Settles O36: by whether the instruction writes `acc`; a writer that completes puts its own value there, and one that faults does not. -/
theorem accumulatorNotRead : Obligations.AccumulatorNotRead := by
  intro i s t v hr h
  rw [readsAcc_eq] at hr
  rw [exec_eq_perform] at h
  change (_ → exec i (s.withAcc v) = .next (t.withAcc v)) ∧ (_ → _ → exec i (s.withAcc v) = .next t) ∧
    ∀ f, _ → exec i (s.withAcc v) = .next (t.withAcc v)
  rw [writesAcc_eq, exec_eq_perform]
  cases hw : i.action.writesAcc with
  | false =>
    have hkeeps := perform_withAcc_of_keeps (rule_withAcc_of_keeps hr hw s v) h
    exact ⟨fun _ => hkeeps, fun hne => (by cases hne), fun _ _ => hkeeps⟩
  | true =>
    refine ⟨fun hne => (by cases hne), ?_⟩
    obtain ⟨hsame, p, hok⟩ | ⟨hfault, f, hf⟩ := perform_withAcc_of_writes (rule_withAcc_of_writes hr hw s v) h
    · exact ⟨fun _ _ => hsame, fun f hf => absurd hf ((Action.change_of_rule hok).status_ne_fault f)⟩
    · exact ⟨fun _ hok => (by rw [hf] at hok; cases hok), fun _ _ => hfault⟩

end Sys2Proof.Machine
end

section
/-!
Proofs of the engine's obligations (40_engine.md sections 1 and 2, 20_memory.md section 8): what fetch and decode answer, the steps they
lead to, and where `run()` ends.
-/

namespace Sys2Proof.Machine

/-! ### Fetch and decode (R101, R102) -/

section
variable {s : State} {p : Nat} {c : CellValue}

theorem fetchInstr_of_ip_unset (hp : s.ip = none) : fetchInstr s = .error .ipUnset := by
  simp [fetchInstr, fetchWord, hp]

theorem fetchInstr_of_past (hp : s.ip = some p) (h : 9999 < p) : fetchInstr s = .error (.addressOutOfRange p) := by
  simp [fetchInstr, fetchWord, hp, memRead_eq, show ¬ p < 10000 by omega]

theorem fetchInstr_of_filler (hp : s.ip = some p) (hle : p ≤ 9999) (hc : s.mem.read p = none) :
    fetchInstr s = .error (.unknownInstruction p) := by
  simp [fetchInstr, fetchWord, hp, memRead_eq, show p < 10000 by omega, hc]

theorem fetchInstr_of_unknown (hp : s.ip = some p) (hle : p ≤ 9999) (hc : s.mem.read p = some c) (hd : decodeHead c = .unknown) :
    fetchInstr s = .error (.unknownInstruction p) := by
  simp [fetchInstr, fetchWord, hp, memRead_eq, show p < 10000 by omega, hc, hd]

/-- A two-word instruction is fetched by a data read of its operand word. -/
theorem fetchInstr_of_twoWord {op : Fam9Op} {b : Bool} (hp : s.ip = some p) (hle : p ≤ 9999) (hc : s.mem.read p = some c)
    (hd : decodeHead c = .twoWord op b) : fetchInstr s = dataRead s (p + 1) >>= fun w => .ok (fam9Word op b w) := by
  simp [fetchInstr, fetchWord, hp, memRead_eq, show p < 10000 by omega, hc, hd]

end

theorem twoWord_of_decodedWords {d : Decoded} (h : decodedWords d = some 2) : ∃ op b, d = .twoWord op b := by
  cases d with
  | unknown | oneWord => cases h
  | twoWord op b => exact ⟨op, b, rfl⟩

theorem step_of_fetch_error {s : State} {f : Fault} (hr : s.Runnable) (h : fetchInstr s.beginStep = .error f) :
    step s = .next (s.afterFault f) := by
  rw [step, (guardOf_eq_none s).2 hr, h]
  rfl

/-- Settles O41: fetch reads the word and its operand word, and the step runs what they decode to. -/
theorem stepRunsDecodedInstruction : Obligations.StepRunsDecodedInstruction := by
  intro s p c i hr hp hc
  have hrun (hi : fetchInstr s.beginStep = .ok i) : step s = exec i { s with halted := .no } := by
    rw [step_of_runnable hr hi, beginStep_of_runnable hr]
    rfl
  refine ⟨fun hle hd => hrun (fetchInstr_of_oneWord hp hle hc hd), fun w hle hw hd => ?_⟩
  obtain ⟨_, -, hws⟩ | ⟨_, op, b, _, hhead, rfl, hws⟩ := decodeWords_ok hd
  · cases hws
  · cases hws
    have hread : dataRead s.beginStep (p + 1) = .ok w := (dataRead_ok _ _ _).2 ⟨by omega, hw⟩
    exact hrun (by rw [fetchInstr_of_twoWord (s := s.beginStep) hp (by omega) hc hhead, hread, ok_bind])

/-- Settles O43: each fault of fetch and decode ends the step. -/
theorem fetchAndDecodeTraps : Obligations.FetchAndDecodeTraps := by
  intro s hr
  refine ⟨fun hp => step_of_fetch_error hr (fetchInstr_of_ip_unset hp), fun p hp => ⟨fun h => ?_, fun hle hc => ?_,
    fun c hle hc => ⟨fun hd => ?_, fun hd => ?_⟩⟩⟩
  · exact step_of_fetch_error hr (fetchInstr_of_past hp h)
  · exact step_of_fetch_error hr (fetchInstr_of_filler hp hle hc)
  · exact step_of_fetch_error hr (fetchInstr_of_unknown hp hle hc hd)
  · obtain ⟨op, b, hd⟩ := twoWord_of_decodedWords hd
    have hfetch {f : Fault} (hf : dataRead s.beginStep (p + 1) = .error f) : step s = .next (s.afterFault f) :=
      step_of_fetch_error hr (by rw [fetchInstr_of_twoWord (s := s.beginStep) hp hle hc hd, hf, error_bind])
    refine ⟨fun h => ?_, fun hlt hw => hfetch ((dataRead_error _ _ _).2 (.inr ⟨by omega, hw, rfl⟩))⟩
    subst h
    exact hfetch ((dataRead_error _ _ _).2 (.inl ⟨by omega, rfl⟩))

/-! ### How a step ends (R104, R106) -/

/-- Settles O44: a fault of fetch leaves everything, and so does a fault of the instruction. -/
theorem faultIsAtomic : Obligations.FaultIsAtomic := by
  intro s t f hr h hf
  obtain ⟨g, hg, -⟩ | ⟨-, f', -, rfl⟩ | ⟨-, i, -, he⟩ := step_next h
  · rw [(guardOf_eq_none s).2 hr] at hg; cases hg
  · cases hf; rfl
  · rw [eq_takeFault_of_exec he hf]; rfl

theorem step_answers (s : State) : ∃ t, step s = .next t := by
  unfold step
  split
  · exact ⟨_, rfl⟩
  · split
    · exact ⟨_, rfl⟩
    · exact exec_answers _ _

theorem guardOf_some {s : State} {g : Guard} (h : guardOf s = some g) : g = .notLoaded ∨ g = .alreadyHalted := by
  unfold guardOf at h
  split at h
  · cases h; exact .inl rfl
  · split at h <;> cases h
    exact .inr rfl

/-- A step is refused by a guard, or the machine is runnable (R100). -/
theorem refused_or_runnable (s : State) : (∃ g, guardOf s = some g) ∨ s.Runnable := by
  cases hg : guardOf s with
  | none => exact .inr ((guardOf_eq_none s).1 hg)
  | some g => exact .inl ⟨g, rfl⟩

/-- Settles O45: refused by one of the two guards, or ended as `step_ends` says. -/
theorem everyStepAnswers : Obligations.EveryStepAnswers := by
  intro s
  obtain ⟨g, hg⟩ | hr := refused_or_runnable s
  · refine ⟨_, step_of_guard hg, ?_⟩
    obtain rfl | rfl := guardOf_some hg
    · exact .inr (.inr (.inr (.inl rfl)))
    · exact .inr (.inr (.inr (.inr rfl)))
  · obtain ⟨t, ht⟩ := step_answers s
    refine ⟨t, ht, ?_⟩
    obtain ⟨-, ⟨-, hst⟩ | ⟨-, hst⟩ | ⟨hst, -⟩⟩ := step_ends hr ht
    · exact .inr (.inl hst)
    · exact .inr (.inr (.inl hst))
    · exact .inl hst

/-! ### `run()` (R108) -/

/-- How a run of at most `n` steps from a runnable state ends: by HALT, by a fault, or at the bound after `n` completed steps. -/
def RunEnds (n : Nat) (s t : State) : Prop :=
  t.EndedWell ∨ t.Faulted ∨
  (t.halted = .no ∧ ∃ u, Host.Core.run Sys2Proof.core n s = .next u ∧ u.status = .ok ∧ t = { u with status := .boundExhausted })

/-- One more step at the front: it ends the run, or it completes and the run goes on from where it leads. -/
theorem runFor_succ_ends {n : Nat} {s : State} (hr : s.Runnable)
    (ih : ∀ u : State, u.loaded = true → u.halted = .no → u.status = .ok → ∃ t, runFor n u = .next t ∧ RunEnds n u t) :
    ∃ t, runFor (n + 1) s = .next t ∧ RunEnds (n + 1) s t := by
  obtain ⟨u, hu⟩ := step_answers s
  obtain ⟨hl, hwell | hfault | ⟨hst, hh⟩⟩ := step_ends hr hu
  · exact ⟨u, runFor_of_endsRun n hu (by rw [hwell.2]; rfl), .inl hwell⟩
  · obtain ⟨f, hf⟩ := hfault.2
    exact ⟨u, runFor_of_endsRun n hu (by rw [hf]; rfl), .inr (.inl hfault)⟩
  · obtain ⟨t, ht, hends⟩ := ih u hl hh hst
    refine ⟨t, (runFor_succ_of_ok n hu hst).trans ht, ?_⟩
    rwa [RunEnds, coreRun_succ_of_step n hu]

theorem runFor_ends (n : Nat) (s : State) (hl : s.loaded = true) (hh : s.halted = .no) (hst : s.status = .ok) :
    ∃ t, runFor n s = .next t ∧ RunEnds n s t := by
  induction n generalizing s with
  | zero => exact ⟨_, rfl, .inr (.inr ⟨hh, s, rfl, hst, rfl⟩)⟩
  | succ n ih => exact runFor_succ_ends ⟨hl, by rw [hh]; exact Halted.noConfusion⟩ ih

/-- Settles O50: refused by a guard, or run for up to 100 steps. -/
theorem runEndsAsReported : Obligations.RunEndsAsReported := by
  intro s
  obtain ⟨g, hg⟩ | hr := refused_or_runnable s
  · refine ⟨_, run_of_guard hg, .inl ⟨fun hr => ?_, g, rfl⟩⟩
    rw [(guardOf_eq_none s).2 hr] at hg; cases hg
  · obtain ⟨t, ht, hwell | hfault | hbound⟩ := runFor_succ_ends (n := 99) hr (runFor_ends 99)
    · exact ⟨t, ht, .inr (.inl ⟨hr, hwell⟩)⟩
    · exact ⟨t, ht, .inr (.inr (.inl ⟨hr, hfault⟩))⟩
    · exact ⟨t, ht, .inr (.inr (.inr ⟨hr, hbound⟩))⟩

/-! ### A word stored where the next step fetches (R66) -/

theorem decodeHead_storeWord {a : Nat} (h : a ≤ 9999) : decodeHead (wordA4 2 a) = .oneWord (.store a) :=
  congrArg (fun n => Decoded.oneWord (.store n)) (fieldA4_wordA4 2 h)

/-- The state after a STORE of `v` to the cell after its own at `p`. -/
def State.afterStoreNext (s : State) (p : Nat) (v : CellValue) : State :=
  (s.clearHalted.setMem (s.mem.write (p + 1) v)).finish p 1

theorem step_storeNext {s : State} {p : Nat} {v : CellValue} (hr : s.Runnable) (hp : s.ip = some p) (hle : p ≤ 9998)
    (hc : s.mem.read p = some (wordA4 2 (p + 1))) (hv : s.acc = some v) : step s = .next (s.afterStoreNext p v) := by
  have hd := decodeHead_storeWord (show p + 1 ≤ 9999 by omega)
  have hwrite := (memWrite_ok s.clearHalted _ (p + 1) v).2 ⟨by omega, rfl⟩
  rw [(stepRunsDecodedInstruction s p _ (.store (p + 1)) hr hp hc).1 (by omega) hd]
  exact exec_operate (k := .store (p + 1)) (o := .acc) (s := s.clearHalted) rfl hp (resolve_acc hv) hwrite

/-- Settles O51: the state after the STORE is runnable at the cell it wrote. -/
theorem storedWordIsFetchedNext : Obligations.StoredWordIsFetchedNext := by
  intro s p v hr hp hle hc hv
  have hread : (s.afterStoreNext p v).mem.read (p + 1) = some v := Memory.read_write_same s.mem (p + 1) v
  refine ⟨s.afterStoreNext p v, step_storeNext hr hp hle hc hv, rfl, hread, hv, fun i hd => ?_⟩
  exact (stepRunsDecodedInstruction (s.afterStoreNext p v) (p + 1) v i ⟨hr.1, Halted.noConfusion⟩ rfl hread).1 (by omega) hd

end Sys2Proof.Machine
end

section
/-!
Proofs of the obligations on creation and the host operations (10_state.md section 8, 70_reset_and_hazards.md section 2): creation,
`reset()`, `setStartAddress`, the accessors, the lines of a load in order and the digits of a line.
-/

namespace Sys2Proof.Machine

/-! ### Creation, `reset()`, the start address and the accessors -/

/-- Settles O52: each field at its named parameter, and no cell written. -/
theorem creationState : Obligations.CreationState :=
  ⟨rfl, rfl, rfl, rfl, rfl, rfl, rfl, rfl, Memory.read_nil⟩

/-- Settles O53: the cells by `hostReset_read`. -/
theorem hostResetZeroesMemory : Obligations.HostResetZeroesMemory := fun s => ⟨fun _ ha => hostReset_read s ha, rfl⟩

/-- Settles O56: on each side of the range check. -/
theorem startAddressChoosesIp : Obligations.StartAddressChoosesIp := by
  intro s a
  refine ⟨fun n hn hle => ?_, fun h => ?_⟩
  · rw [State.setStartAddress, if_pos ((inRange_eq_true a).2 (by omega)), hn, Int.toNat_natCast]
  · rw [State.setStartAddress, if_neg (mt (inRange_eq_true a).1 (by omega))]
    rfl

theorem memoryRange_getElem? {s : State} {a n k : Nat} (h : a + n ≤ 10000) (hk : k < n) :
    (memoryRange s a n).bind (·[k]?) = some (s.mem.read (a + k)) := by
  have hsize : a + n ≤ Config.memSize := h
  simp [memoryRange, hsize, hk]

theorem memoryRangeDecoded_getElem? (s : State) (a n k : Nat) :
    (memoryRangeDecoded s a n).bind (·[k]?) = ((memoryRange s a n).bind (·[k]?)).map decodedForm := by
  cases h : memoryRange s a n <;> simp [memoryRangeDecoded, h]

/-- Settles O57: the raw forms are the fields; the decoded form of a range is taken cell by cell. -/
theorem accessorsReadRawAndDecoded : Obligations.AccessorsReadRawAndDecoded := by
  intro s
  refine ⟨rfl, rfl, rfl, rfl, rfl, fun w h => if_pos h, fun w h => if_neg (by omega), rfl, fun a n k h hk => ?_⟩
  have hraw := memoryRange_getElem? (s := s) h hk
  exact ⟨hraw, by rw [memoryRangeDecoded_getElem?, hraw]; rfl⟩

/-! ### The lines of a load, in order (R266) -/

/-- Good lines are applied whatever follows them. -/
theorem applyLines_append {ls : List Line} {ws : List (Nat × CellValue)} (h : ls.map parseLine = ws.map some) (rest : List Line)
    (m : Memory) : applyLines (ls ++ rest) m = applyLines rest (ws.foldl (fun m e => m.write e.1 e.2) m) := by
  induction ls generalizing ws m with
  | nil =>
    obtain rfl : ws = [] := List.map_eq_nil_iff.1 h.symm
    rfl
  | cons l ls ih =>
    obtain ⟨w, ws, rfl, hl, hls⟩ := List.map_eq_cons_iff.1 h.symm
    rw [List.cons_append, applyLines, ← hl]
    exact ih hls.symm (m.write w.1 w.2)

theorem load_of_good {s : State} {ls : List Line} {m : Memory} (h : applyLines ls s.mem = (m, true)) :
    s.load (some ls) = { s with mem := m, loaded := true, halted := .no, status := .loadOk } := by
  rw [State.load, h]
  rfl

theorem load_of_bad {s : State} {ls : List Line} {m : Memory} (h : applyLines ls s.mem = (m, false)) :
    s.load (some ls) = { s with mem := m, loaded := false, status := .loadError } := by
  rw [State.load, h]

/-- Settles O54: the good lines are applied first, then the end of the file or the violation decides. -/
theorem loadAppliesLinesInOrder : Obligations.LoadAppliesLinesInOrder := by
  intro s ls ws h
  refine ⟨rfl, load_of_good ?_, fun bad rest hbad => load_of_bad ?_⟩
  · simpa [applyLines] using applyLines_append h [] s.mem
  · rw [applyLines_append h, applyLines, hbad]

/-! ### The digits of a line (R266, D17) -/

/-- What the loader sees in a character that writes a digit. -/
theorem digitChar_facts (d : Digit) :
    isBlank (digitChar d) = false ∧ (digitChar d).isDigit = true ∧ charDigit (digitChar d) = d.val ∧ digitChar d ≠ ';' := by
  revert d
  decide

theorem numeralValue_digitChars (ds : List Digit) : numeralValue (ds.map digitChar) = digitsValue ds := by
  simp only [numeralValue, digitsValue, List.foldl_map, digitChar_facts]

theorem isNumeral_digitChars {ds : List Digit} (h : ds ≠ []) : isNumeral (ds.map digitChar) = true := by
  simp [isNumeral, h, digitChar_facts]

theorem stripComment_append {l : Line} (h : ∀ ch ∈ l, ch ≠ ';') (comment : List Char) : stripComment (l ++ ';' :: comment) = l := by
  rw [stripComment, List.takeWhile_append_of_pos (by simpa using h)]
  simp

theorem digitChars_ne_semicolon (ds : List Digit) : ∀ ch ∈ ds.map digitChar, ch ≠ ';' := by
  simp [digitChar_facts]

/-- Digits extend the token that is being read. -/
theorem tokensFrom_digitChars (ds : List Digit) (cur : List Char) (rest : Line) :
    tokensFrom cur (ds.map digitChar ++ rest) = tokensFrom ((ds.map digitChar).reverse ++ cur) rest := by
  induction ds generalizing cur with
  | nil => rfl
  | cons d ds ih =>
    obtain ⟨hblank, -⟩ := digitChar_facts d
    simp [tokensFrom, hblank, ih]

theorem tokensFrom_end {cur : List Char} (h : cur ≠ []) : tokensFrom cur [] = [cur.reverse] := by
  simp [tokensFrom, h]

theorem tokensFrom_blank {cur : List Char} (h : cur ≠ []) (rest : Line) :
    tokensFrom cur (' ' :: rest) = cur.reverse :: tokensFrom [] rest := by
  have hblank : isBlank ' ' = true := rfl
  simp [tokensFrom, h, hblank]

theorem tokensFrom_numeral {ds : List Digit} (h : ds ≠ []) : tokensFrom [] (ds.map digitChar) = [ds.map digitChar] := by
  have hds := tokensFrom_digitChars ds [] []
  rw [List.append_nil, List.append_nil] at hds
  rw [hds, tokensFrom_end (by simpa using h), List.reverse_reverse]

theorem tokensFrom_two_numerals {as ds : List Digit} (ha : as ≠ []) (hd : ds ≠ []) :
    tokensFrom [] (as.map digitChar ++ ' ' :: ds.map digitChar) = [as.map digitChar, ds.map digitChar] := by
  rw [tokensFrom_digitChars, List.append_nil, tokensFrom_blank (by simpa using ha), List.reverse_reverse, tokensFrom_numeral hd]

/-- The line that writes an address and a value in digits, a comment behind. -/
def numeralLine (as ds : List Digit) (comment : List Char) : Line :=
  as.map digitChar ++ ' ' :: ds.map digitChar ++ ';' :: comment

theorem lineTokens_numeralLine {as ds : List Digit} (ha : as ≠ []) (hd : ds ≠ []) (comment : List Char) :
    lineTokens (numeralLine as ds comment) = [as.map digitChar, ds.map digitChar] := by
  have hchars : ∀ ch ∈ as.map digitChar ++ ' ' :: ds.map digitChar, ch ≠ ';' := by
    simp [or_imp, forall_and, digitChar_facts]
  rw [lineTokens, numeralLine, stripComment_append hchars, tokensFrom_two_numerals ha hd]

/-- What such a line is parsed to: its value's cell if there is one, when the address and the length are in bounds. -/
theorem parseLine_numeralLine {as ds : List Digit} (ha : as ≠ []) (hd : ds ≠ []) (comment : List Char) :
    parseLine (numeralLine as ds comment) =
      if digitsValue as ≤ 9999 ∧ ds.length ≤ 5 then (cellOfNat (digitsValue ds)).map (digitsValue as, ·) else none := by
  have hcheck : (isNumeral (as.map digitChar) && isNumeral (ds.map digitChar) && inRange (digitsValue as) &&
      decide ((ds.map digitChar).length ≤ Config.wordDigits)) = decide (digitsValue as ≤ 9999 ∧ ds.length ≤ 5) := by
    rw [isNumeral_digitChars ha, isNumeral_digitChars hd, List.length_map, Bool.eq_iff_iff]
    simp only [Bool.and_eq_true, decide_eq_true_eq, inRange_natCast, true_and]
    have hdigits : Config.wordDigits = 5 := rfl
    omega
  simp only [parseLine, lineTokens_numeralLine ha hd, numeralValue_digitChars, hcheck, decide_eq_true_eq]
  congr 1
  cases cellOfNat (digitsValue ds) <;> rfl

/-! ### Padding -/

theorem digitsValue_pad (k : Nat) (ds : List Digit) : digitsValue (List.replicate k 0 ++ ds) = digitsValue ds := by
  induction k with
  | zero => rfl
  | succ k ih => exact ih

theorem exists_digits_eq {l : List Digit} (h : l.length = 5) : ∃ c : CellValue, c.digits = l := by
  match l, h with
  | [d0, d1, d2, d3, d4], _ => exact ⟨⟨d0, d1, d2, d3, d4⟩, rfl⟩

/-- The cell value whose digits write a number is the one found for the number. -/
theorem cellOfNat_digitsValue (c : CellValue) : cellOfNat (digitsValue c.digits) = some c := by
  have h0 := c.d0.lt_ten; have h1 := c.d1.lt_ten; have h2 := c.d2.lt_ten; have h3 := c.d3.lt_ten; have h4 := c.d4.lt_ten
  have hn : digitsValue c.digits = 10000 * c.d0.val + 1000 * c.d1.val + 100 * c.d2.val + 10 * c.d3.val + c.d4.val := by
    simp [digitsValue, CellValue.digits, Config.radix]; omega
  have hlt : digitsValue c.digits < Config.radix ^ Config.wordDigits := by
    rw [hn]; show _ < 100000; omega
  rw [cellOfNat, if_pos hlt, hn]
  refine congrArg some (CellValue.ext_val ?_ ?_ ?_ ?_ ?_) <;> (rw [digitAt_val]; omega)

/-- A numeral of at most five digits has the cell value of its padded digits. -/
theorem cellOfNat_pad {ds : List Digit} (h : ds.length ≤ 5) :
    ∃ c : CellValue, cellOfNat (digitsValue ds) = some c ∧ c.digits = List.replicate (5 - ds.length) 0 ++ ds := by
  obtain ⟨c, hc⟩ := exists_digits_eq (l := List.replicate (5 - ds.length) 0 ++ ds) (by simp; omega)
  exact ⟨c, by rw [← digitsValue_pad (5 - ds.length), ← hc, cellOfNat_digitsValue], hc⟩

/-- Settles O55: two numerals within bounds give the padded cell; out of bounds, alone or absent they are violations. -/
theorem linesPadTheirDigits : Obligations.LinesPadTheirDigits := by
  intro as ds comment ha hd
  have hparse := parseLine_numeralLine ha hd comment
  refine ⟨fun hle hlen => ?_, fun h => ?_, ?_, ?_⟩
  · obtain ⟨c, hc, hdigits⟩ := cellOfNat_pad hlen
    rw [if_pos ⟨hle, hlen⟩, hc] at hparse
    exact ⟨c, hparse, hdigits⟩
  · rwa [if_neg (by omega)] at hparse
  · rw [parseLine, lineTokens, stripComment_append (digitChars_ne_semicolon as), tokensFrom_numeral ha]
  · rw [parseLine, lineTokens, ← List.nil_append (';' :: comment), stripComment_append (by simp)]
    rfl

end Sys2Proof.Machine
end
